-- ==== Sys2Proof/Word.lean ====
section
/-! DEFINITION. The word types of SRGX-CT and its plainest bit operation (spec/00_scope.md rules R9, R12, R13, R15). -/

namespace Sys2Proof

/-- A byte: "A byte is 8 bits, `b[7:0]`" (R12). -/
abbrev Byte := BitVec 8

/-- A pin index or segment start at the command interface: 16 bits, unsigned (R9). -/
abbrev PinIndex := BitVec 16

/-- One bit of a value, or the level of a line: `true` is 1 (high), `false` is 0 (low) (R17, decision D28). -/
abbrev Level := Bool

/-- The identifier of a line, as the PinDriver names it (R7). The spec leaves the type abstract (decision D29):
the model takes natural numbers and only ever compares them for equality. DESIGN CHOICE, log entry 7. -/
structure PinId where
  id : Nat
deriving DecidableEq, Repr

end Sys2Proof
end

