-- ==== Sys2Proof/Config.lean ====
section
/-! DEFINITION. What is fixed outside a run of the block: the construction parameters the spec leaves to the host
(spec/70_reset_and_hazards.md rule R260), the default hold time (spec/00_scope.md rule R8), and the free values of
the spec's draws (spec/93_implementation_defined.md U1 to U3). -/

namespace Sys2Proof

/-- The parameters of a construction (R260). `registerCount` is any number the host may send: a number outside
1..255 is refused by construction itself (R261). `seed` and `hold` are optional. -/
structure ConstructParams where
  registerCount : Nat
  pinData : PinId
  pinClk : PinId
  pinLatch : PinId
  seed : Option (List Byte)
  hold : Option Nat
deriving DecidableEq, Repr

/-- `T_HOLD` when the host supplies none, in microseconds (R8). -/
def Config.defaultHold : Nat := 10

/-- FREE VALUE (U3, R193). Whether raising a clock or latch line that the block has not driven yet is an edge.
Log entry 6. -/
opaque Config.undrivenEdge : Nat → Bool

/-- FREE VALUE (U1, R267). The level of the data line while the block has not driven it. Log entry 6. -/
opaque Config.undrivenData : Nat → Bool

/-- FREE VALUE (U2, R266). What the chain's shift stage holds after a `Configure` call. Log entry 6. -/
opaque Config.chainShiftStage : Nat → Nat

/-- FREE VALUE (U2, R266). What the chain's outputs show after a `Configure` call. Log entry 6. -/
opaque Config.chainOutputs : Nat → Nat

end Sys2Proof
end

