-- ==== Sys2Proof/Syntax.lean ====
section
/-! DEFINITION. The 13 commands of the opcode map (spec/30_encoding.md rules R70, R79) as abstract records: one constructor
per row of spec/opcode_table.json, each with the operands its rule lists. -/

namespace Sys2Proof

/-- A command the decoder has accepted. A buffer operand is `none` when the caller's buffer is absent (`A = 0`, R74). -/
inductive Instr where
  /-- GET: read one pin (R100). -/
  | get (pin : PinIndex)
  /-- SET: write one pin (R103). -/
  | set (pin : PinIndex) (bit : Bool)
  /-- TOGGLE: invert one pin (R106). -/
  | toggle (pin : PinIndex)
  /-- FILL: set every byte to one value (R120). -/
  | fill (byteValue : Byte)
  /-- MSET: set the selected pins (R124). -/
  | mset (mask : Option (List Byte))
  /-- MRESET: clear the selected pins (R128). -/
  | mreset (mask : Option (List Byte))
  /-- MTOGGLE: invert the selected pins (R132). -/
  | mtoggle (mask : Option (List Byte))
  /-- RDSEG: read a segment as a right-aligned value (R160). -/
  | rdseg (start : PinIndex) (count : BitVec 8)
  /-- WRSEG: write a segment from a right-aligned value (R164). -/
  | wrseg (start : PinIndex) (count : BitVec 8) (value : BitVec 16)
  /-- OVERWRITE: replace the whole buffer (R136). -/
  | overwrite (new : Option (List Byte))
  /-- MSTAMP: copy the pins a mask selects from a value buffer: `(MASK, VAL)` (R140). -/
  | mstamp (maskVal : Option (List Byte × List Byte))
  /-- READBUF: return the whole buffer (R144). -/
  | readbuf
  /-- TRANSMIT: serialize the buffer to the chain and latch it (R184). -/
  | transmit
deriving DecidableEq, Repr

end Sys2Proof
end

