-- ==== Sys2Proof/WellFormed.lean ====
section
/-! DEFINITION. Which abstract commands a command word can spell: an attached buffer's length fits the 8-bit field `L`
(spec/30_encoding.md rules R71, R72), and the two buffers of an MSTAMP share one `L` (rules R75, R76). -/

namespace Sys2Proof

/-- An operand buffer is absent, or its length fits the field `L` (R72). -/
def bufferFits : Option (List Byte) → Bool
  | none => true
  | some b => b.length < 256

/-- The two buffers of an MSTAMP are absent together, or of one length that fits the field `L` (R76). -/
def bufferPairFits : Option (List Byte × List Byte) → Bool
  | none => true
  | some (m, v) => m.length < 256 && m.length == v.length

/-- The commands a command word can spell. The other operands are typed at their field's width. -/
def Instr.wellFormed : Instr → Bool
  | .get _ => true
  | .set _ _ => true
  | .toggle _ => true
  | .fill _ => true
  | .mset m => bufferFits m
  | .mreset m => bufferFits m
  | .mtoggle m => bufferFits m
  | .rdseg _ _ => true
  | .wrseg _ _ _ => true
  | .overwrite b => bufferFits b
  | .mstamp b => bufferPairFits b
  | .readbuf => true
  | .transmit => true

end Sys2Proof
end

