-- ==== Sys2Proof/Decode.lean ====
section
/-! DEFINITION. The command word and its payload (spec/30_encoding.md rules R71 to R80): fields, decoder and encoder. -/

namespace Sys2Proof

/-! ## The command word (R71) -/

/-- The seven fields of a command word (R71). -/
structure Fields where
  op : BitVec 8
  p : BitVec 16
  c : BitVec 8
  l : BitVec 8
  rsv : BitVec 7
  a : BitVec 1
  v : BitVec 16
deriving DecidableEq, Repr

/-- The fields of a word: `OP[63:56] P[55:40] C[39:32] L[31:24] RSV[23:17] A[16] V[15:0]` (R71). -/
def Fields.ofWord (w : BitVec 64) : Fields where
  op := w.extractLsb' 56 8
  p := w.extractLsb' 40 16
  c := w.extractLsb' 32 8
  l := w.extractLsb' 24 8
  rsv := w.extractLsb' 17 7
  a := w.extractLsb' 16 1
  v := w.extractLsb' 0 16

/-- "The word is `OP ++ P ++ C ++ L ++ RSV ++ A ++ V`" (R71). -/
def Fields.toWord (f : Fields) : BitVec 64 :=
  f.op ++ f.p ++ f.c ++ f.l ++ f.rsv ++ f.a ++ f.v

/-- The word on the byte-wide host link: "sent most significant byte first" (R71). -/
def bytesOfWord (w : BitVec 64) : List Byte :=
  [w.extractLsb' 56 8, w.extractLsb' 48 8, w.extractLsb' 40 8, w.extractLsb' 32 8,
   w.extractLsb' 24 8, w.extractLsb' 16 8, w.extractLsb' 8 8, w.extractLsb' 0 8]

/-- The word whose eight bytes arrive in this order (R71). -/
def wordOfBytes (b7 b6 b5 b4 b3 b2 b1 b0 : Byte) : BitVec 64 :=
  b7 ++ b6 ++ b5 ++ b4 ++ b3 ++ b2 ++ b1 ++ b0

/-! ## The opcode map (R79) -/

/-- The 13 operations of the opcode map (R79). -/
inductive Opcode where
  | get | set | toggle | fill | mset | mreset | mtoggle | rdseg | wrseg | overwrite | mstamp | readbuf | transmit
deriving DecidableEq, Repr

/-- The opcode map (R79). -/
def Opcode.code : Opcode → BitVec 8
  | .get => 0x01#8
  | .set => 0x02#8
  | .toggle => 0x03#8
  | .fill => 0x04#8
  | .mset => 0x05#8
  | .mreset => 0x06#8
  | .mtoggle => 0x07#8
  | .rdseg => 0x08#8
  | .wrseg => 0x09#8
  | .overwrite => 0x0A#8
  | .mstamp => 0x0B#8
  | .readbuf => 0x0C#8
  | .transmit => 0x10#8

/-- The opcode map read backwards: "Every `OP` value not in this table is reserved" (R79, R80). -/
def Opcode.ofCode (b : BitVec 8) : Option Opcode :=
  match b.toNat with
  | 0x01 => some .get
  | 0x02 => some .set
  | 0x03 => some .toggle
  | 0x04 => some .fill
  | 0x05 => some .mset
  | 0x06 => some .mreset
  | 0x07 => some .mtoggle
  | 0x08 => some .rdseg
  | 0x09 => some .wrseg
  | 0x0A => some .overwrite
  | 0x0B => some .mstamp
  | 0x0C => some .readbuf
  | 0x10 => some .transmit
  | _ => none

/-- `k`, the number of buffers in the operation's payload (R75, R79). -/
def Opcode.payloadBuffers : Opcode → Nat
  | .mset => 1
  | .mreset => 1
  | .mtoggle => 1
  | .overwrite => 1
  | .mstamp => 2
  | .get => 0
  | .set => 0
  | .toggle => 0
  | .fill => 0
  | .rdseg => 0
  | .wrseg => 0
  | .readbuf => 0
  | .transmit => 0

/-- The payload bytes that follow a word: `k * L * A`, and none after an unassigned opcode (R75, R77). -/
def payloadLength (f : Fields) : Nat :=
  match Opcode.ofCode f.op with
  | none => 0
  | some o => o.payloadBuffers * f.l.toNat * f.a.toNat

/-! ## The decode checks (R73, R74, R80) -/

/-- Why a word is illegal (R224). -/
inductive Illegal where
  /-- `OP` is reserved (R80). -/
  | reservedOpcode
  /-- A field the opcode does not use, or `RSV`, is non-zero (R73). -/
  | unusedField
  /-- `A = 0` and `L` is not 0 (R74). -/
  | lengthWithoutBuffer
deriving DecidableEq, Repr

/-- Every field the opcode does not list is 0, and `RSV` is 0 (R73). -/
def unusedFieldsZero (o : Opcode) (f : Fields) : Bool :=
  f.rsv == 0#7 &&
  match o with
  | .get => f.c == 0#8 && f.l == 0#8 && f.a == 0#1 && f.v == 0#16
  | .toggle => f.c == 0#8 && f.l == 0#8 && f.a == 0#1 && f.v == 0#16
  | .set => f.c == 0#8 && f.l == 0#8 && f.a == 0#1 && f.v.extractLsb' 1 15 == 0#15
  | .fill => f.p == 0#16 && f.c == 0#8 && f.l == 0#8 && f.a == 0#1 && f.v.extractLsb' 8 8 == 0#8
  | .mset => f.p == 0#16 && f.c == 0#8 && f.v == 0#16
  | .mreset => f.p == 0#16 && f.c == 0#8 && f.v == 0#16
  | .mtoggle => f.p == 0#16 && f.c == 0#8 && f.v == 0#16
  | .overwrite => f.p == 0#16 && f.c == 0#8 && f.v == 0#16
  | .mstamp => f.p == 0#16 && f.c == 0#8 && f.v == 0#16
  | .rdseg => f.l == 0#8 && f.a == 0#1 && f.v == 0#16
  | .wrseg => f.l == 0#8 && f.a == 0#1
  | .readbuf => f.p == 0#16 && f.c == 0#8 && f.l == 0#8 && f.a == 0#1 && f.v == 0#16
  | .transmit => f.p == 0#16 && f.c == 0#8 && f.l == 0#8 && f.a == 0#1 && f.v == 0#16

/-- The operand of a one-buffer payload: absent when `A = 0` (R74, R76). -/
def oneBuffer (f : Fields) (pay : List Byte) : Option (List Byte) :=
  if f.a = 1#1 then some pay else none

/-- The operands of an MSTAMP payload: bytes `0..L-1` are the mask and `L..2L-1` the value (R76). -/
def twoBuffers (f : Fields) (pay : List Byte) : Option (List Byte × List Byte) :=
  if f.a = 1#1 then some (pay.take f.l.toNat, pay.drop f.l.toNat) else none

/-- The command of a word whose decode checks have passed (R78). -/
def assembleOperands (o : Opcode) (f : Fields) (pay : List Byte) : Instr :=
  match o with
  | .get => .get f.p
  | .set => .set f.p (f.v.getLsbD 0)
  | .toggle => .toggle f.p
  | .fill => .fill (f.v.extractLsb' 0 8)
  | .mset => .mset (oneBuffer f pay)
  | .mreset => .mreset (oneBuffer f pay)
  | .mtoggle => .mtoggle (oneBuffer f pay)
  | .rdseg => .rdseg f.p f.c
  | .wrseg => .wrseg f.p f.c f.v
  | .overwrite => .overwrite (oneBuffer f pay)
  | .mstamp => .mstamp (twoBuffers f pay)
  | .readbuf => .readbuf
  | .transmit => .transmit

/-- The decode checks of R73, R74 and R80 on a word and its complete payload. -/
def decodeFields (f : Fields) (pay : List Byte) : Except Illegal Instr :=
  match Opcode.ofCode f.op with
  | none => .error .reservedOpcode
  | some o =>
    if unusedFieldsZero o f = false then .error .unusedField
    else if f.a = 0#1 ∧ f.l ≠ 0#8 then .error .lengthWithoutBuffer
    else .ok (assembleOperands o f pay)

/-! ## Decoding the host's byte stream (R71, R75, R77) -/

/-- What the front of the host's byte stream holds. -/
inductive Decoded where
  /-- A legal command, and the bytes after it. -/
  | command (i : Instr) (rest : List Byte)
  /-- An illegal word with its payload (R224), and the bytes after it. -/
  | illegal (why : Illegal) (rest : List Byte)
  /-- Fewer than the 8 bytes of a word. -/
  | shortWord
  /-- A word, and fewer than its `k * L * A` payload bytes (R275). -/
  | shortPayload
deriving DecidableEq, Repr

/-- Decode a word whose following bytes are `rest`: all payload bytes are consumed before the outcome is decided, also
when it is an error (R75). -/
def decodeAfterWord (f : Fields) (rest : List Byte) : Decoded :=
  if rest.length < payloadLength f then .shortPayload
  else
    match decodeFields f (rest.take (payloadLength f)) with
    | .ok i => .command i (rest.drop (payloadLength f))
    | .error why => .illegal why (rest.drop (payloadLength f))

/-- Decode the front of the host's byte stream. -/
def decode : List Byte → Decoded
  | b7 :: b6 :: b5 :: b4 :: b3 :: b2 :: b1 :: b0 :: rest =>
    decodeAfterWord (Fields.ofWord (wordOfBytes b7 b6 b5 b4 b3 b2 b1 b0)) rest
  | _ => .shortWord

/-! ## The encoder (R71 to R76) -/

/-- A word with this opcode and every other field 0. -/
def Fields.bare (o : Opcode) : Fields where
  op := o.code
  p := 0#16
  c := 0#8
  l := 0#8
  rsv := 0#7
  a := 0#1
  v := 0#16

/-- A buffer opcode's word: `A` and `L` describe the buffer (R74). -/
def Fields.withBuffer (o : Opcode) : Option (List Byte) → Fields
  | none => Fields.bare o
  | some b => { Fields.bare o with l := BitVec.ofNat 8 b.length, a := 1#1 }

/-- The fields of a command's word (R73, R78). -/
def Instr.fields : Instr → Fields
  | .get pin => { Fields.bare .get with p := pin }
  | .set pin bit => { Fields.bare .set with p := pin, v := (BitVec.ofBool bit).setWidth 16 }
  | .toggle pin => { Fields.bare .toggle with p := pin }
  | .fill byteValue => { Fields.bare .fill with v := byteValue.setWidth 16 }
  | .mset m => Fields.withBuffer .mset m
  | .mreset m => Fields.withBuffer .mreset m
  | .mtoggle m => Fields.withBuffer .mtoggle m
  | .rdseg start count => { Fields.bare .rdseg with p := start, c := count }
  | .wrseg start count value => { Fields.bare .wrseg with p := start, c := count, v := value }
  | .overwrite b => Fields.withBuffer .overwrite b
  | .mstamp b => Fields.withBuffer .mstamp (b.map Prod.fst)
  | .readbuf => Fields.bare .readbuf
  | .transmit => Fields.bare .transmit

/-- The payload bytes of a command (R75, R76). -/
def Instr.payload : Instr → List Byte
  | .mset m => m.getD []
  | .mreset m => m.getD []
  | .mtoggle m => m.getD []
  | .overwrite b => b.getD []
  | .mstamp none => []
  | .mstamp (some (m, v)) => m ++ v
  | .get _ => []
  | .set _ _ => []
  | .toggle _ => []
  | .fill _ => []
  | .rdseg _ _ => []
  | .wrseg _ _ _ => []
  | .readbuf => []
  | .transmit => []

/-- The bytes of a command on the host link: its word, most significant byte first, then its payload (R71, R75). -/
def encode (i : Instr) : List Byte :=
  bytesOfWord i.fields.toWord ++ i.payload

/-! ## The host's numbering of a table row's bits -/

/-- The bytes of an instruction given as the opcode table numbers its bits: bit 0 is the least significant bit of the
64-bit word, a payload byte's bits count on after the word's, and every bit from `nbits` up is 0. -/
def tableBytes (nbits w : Nat) : List Byte :=
  let bits := w % 2 ^ nbits
  let word := BitVec.ofNat 64 bits
  bytesOfWord word ++
    (List.range (payloadLength (Fields.ofWord word))).map fun j => BitVec.ofNat 8 (bits >>> (64 + 8 * j))

/-- The instruction the decoder reads from a table row's bits; none where it refuses the word. -/
def decodeTableWord (nbits w : Nat) : Option Instr :=
  match decode (tableBytes nbits w) with
  | .command i _ => some i
  | .illegal _ _ => none
  | .shortWord => none
  | .shortPayload => none

end Sys2Proof
end

