-- ==== Sys2Proof/Machine/State.lean ====
section
/-! DEFINITION. The state of the block and of what it is wired to (spec/10_state.md), the reasons a step stops, and the
state after construction (rule R34). -/

namespace Sys2Proof.Machine

/-- `PHASE` (R27). -/
inductive Phase where
  | unbuilt
  | ready
deriving DecidableEq, Repr

/-- `CFG`, the construction parameters the block keeps (R25). -/
structure Cfg where
  /-- `N`, the number of registers and of bytes of `BUF`: 8-bit, legal values 1..255 (R5). -/
  n : BitVec 8
  pinData : PinId
  pinClk : PinId
  pinLatch : PinId
  /-- `T_HOLD` in microseconds (R8). -/
  tHold : Nat
deriving DecidableEq, Repr

/-- The three output lines (R180). -/
inductive Line where
  | data
  | clk
  | latch
deriving DecidableEq, Repr

/-- An entry of `TRACE`: one call of a PinDriver primitive (R17, R30). -/
inductive Event where
  | configure (pin : PinId)
  | drive (pin : PinId) (level : Level)
  | delay (micros : Nat)
deriving DecidableEq, Repr

/-- A PinDriver call as the transmitter's pseudocode writes it, the line named by its role (R184). -/
inductive PinCall where
  | drive (line : Line) (level : Level)
  | hold
deriving DecidableEq, Repr

/-- `RESP.STATUS` (R220). The numbers 0x05 to 0xFF are no value of it (U9). -/
inductive Status where
  | ok
  | pinOutOfRange
  | nullOrMissingBuffer
  | lengthMismatch
  | illegalCommand
deriving DecidableEq, Repr

/-- `RESP` (R28). -/
structure Response where
  status : Status
  data : BitVec 16
  /-- `OUTPAYLOAD`. -/
  out : List Byte
deriving DecidableEq, Repr

/-- The chain of `m` shift registers (R31): `sh` is the shift stage and `st` the outputs, each a number whose bit `q` is
chain position `q`. -/
structure Chain where
  m : Nat
  sh : Nat
  st : Nat
deriving DecidableEq, Repr

/-- `BUF` as the byte space `0..N-1` (R50): the listed bytes, addresses strictly rising, no byte listed that equals what
an unlisted address reads as (`Memory.unlisted`). -/
abbrev Memory := List Host.Cell

/-- The block's state `(PHASE, CFG, BUF, LV_*, RESP, TRACE)`, its environment's `CHAIN` (R20), and the host's side of
the port (R21, R236). -/
structure State where
  phase : Phase
  cfg : Cfg
  /-- `BUF` (R22). -/
  buf : Memory
  /-- `LV_DATA`; `none` is the spec's ⊥, not driven yet (R26). -/
  lvData : Option Level
  /-- `LV_CLK`. -/
  lvClk : Option Level
  /-- `LV_LATCH`. -/
  lvLatch : Option Level
  /-- `RESP`, the response of the last command (R28). -/
  resp : Response
  /-- `TRACE`, oldest call first (R30). -/
  trace : List Event
  /-- `CHAIN` (R31), the environment's. -/
  chain : Chain
  /-- The bytes the host sends on its link, in order, that the block has not accepted yet (R21, R71). Log entry 3. -/
  port : List Byte
  /-- The host's construction request, for a block that is not built (R240, R260). Log entry 4. -/
  request : Option ConstructParams
  /-- The responses the host has received, oldest first (R236, R263). Log entry 5. -/
  delivered : List Response
  /-- How many free values have been drawn: the model's own counter. Log entry 6. -/
  draws : Nat
deriving DecidableEq, Repr

/-- The stuck states of the spec, in which the block has no step. -/
inductive Fault where
  /-- Raised by `step` when the block is ready and fewer than the 8 bytes of a command word are on the port: the block
  waits for the host (R21, R236, R275; DEDUCED, log entry 8). Safe: nothing is claimed about how the wait ends. -/
  | awaitingCommand
  /-- Raised by `step` when fewer than the word's `k * L * A` payload bytes are on the port: "the block waiting, and the
  model has no step for the block" (R275, U11). Safe. -/
  | awaitingPayload
deriving DecidableEq, Repr

/-- Moves the spec does not give. -/
inductive Refusal where
  /-- An arm of `exec` that has no meaning yet. Raised by no arm of this model. Safe. -/
  | notModelled (mnemonic : String)
  /-- Raised by `step` while `PHASE = Unbuilt` and no construction is requested: a command then "has no move in the model"
  (R27, U12; log entry 9). Safe. -/
  | notReady
  /-- Raised by `construct` for illegal parameters: "construction is refused and no block exists" (R25, R261, U13).
  Safe. -/
  | illegalConstruction
deriving DecidableEq, Repr

/-- The construction parameters of `State.reset`: `N = 2`, three distinct pins, no seed, the default hold time, as the
spec's program P1 starts (spec/95_test_vectors.md part 3). DESIGN CHOICE, log entry 2. -/
def resetParams : ConstructParams where
  registerCount := 2
  pinData := ⟨0⟩
  pinClk := ⟨1⟩
  pinLatch := ⟨2⟩
  seed := none
  hold := none

/-- A block that is not built: the host requests a construction, the chain is of `m` registers holding anything (R27,
R34, R266). `BUF` does not exist yet and no line has been driven; the fields that have no value yet hold one that
nothing reads. DESIGN CHOICE, log entry 15. -/
def State.unbuilt (p : Option ConstructParams) (chain : Chain) : State where
  phase := .unbuilt
  cfg := ⟨0#8, ⟨0⟩, ⟨0⟩, ⟨0⟩, 0⟩
  buf := []
  lvData := none
  lvClk := none
  lvLatch := none
  resp := ⟨.ok, 0#16, []⟩
  trace := []
  chain := chain
  port := []
  request := p
  delivered := []
  draws := 0

/-- The machine right after construction with `resetParams` on a chain of `M = N` registers: every value of the table of
R34. `TRACE` is the three `Configure` calls and the frame of 16 bits 0. -/
def State.reset : State where
  phase := .ready
  cfg := ⟨2#8, ⟨0⟩, ⟨1⟩, ⟨2⟩, 10⟩
  buf := []
  lvData := some false
  lvClk := some true
  lvLatch := some true
  resp := ⟨.ok, 0#16, []⟩
  trace := [.configure ⟨0⟩, .configure ⟨1⟩, .configure ⟨2⟩, .drive ⟨2⟩ false] ++
    (List.replicate 16 [Event.drive ⟨1⟩ false, .drive ⟨0⟩ false, .delay 10, .drive ⟨1⟩ true]).flatten ++
    [.drive ⟨2⟩ true]
  chain := ⟨2, 0, 0⟩
  port := []
  request := none
  delivered := []
  draws := 3

end Sys2Proof.Machine
end

