-- ==== Sys2Proof/Machine/Ops.lean ====
section
/-! DEFINITION. The named operations over `BUF`, the PinDriver and the chain, the frame, and construction
(spec/00_scope.md rules R14 to R17, spec/44_transmitter.md, spec/70_reset_and_hazards.md). -/

namespace Sys2Proof.Machine

/-! ## The byte space (R14, R50) -/

/-- What an address that is not listed reads as: the content of a buffer that nothing has seeded or written, 0x00 (R34;
log entry 1). -/
def Memory.unlisted : Byte := 0x00#8

/-- The canonical form: addresses strictly rising from `low`, and no listed byte equal to `Memory.unlisted`. -/
def Memory.wfFrom : Nat → Memory → Bool
  | _, [] => true
  | low, (a, v) :: rest => low ≤ a && v != Memory.unlisted && Memory.wfFrom (a + 1) rest

/-- The canonical form of a memory. -/
def Memory.wf (m : Memory) : Bool := Memory.wfFrom 0 m

/-- `BUF[a]` (R14). -/
def Memory.read (m : Memory) (a : Nat) : Byte :=
  match m with
  | [] => Memory.unlisted
  | (b, v) :: rest => if b = a then v else Memory.read rest a

/-- The memory without an entry for `a`. -/
def Memory.erase (m : Memory) (a : Nat) : Memory :=
  match m with
  | [] => []
  | (b, v) :: rest => if b = a then Memory.erase rest a else (b, v) :: Memory.erase rest a

/-- An entry put before the first larger address. -/
def Memory.insert (m : Memory) (a : Nat) (v : Byte) : Memory :=
  match m with
  | [] => [(a, v)]
  | (b, w) :: rest => if a < b then (a, v) :: (b, w) :: rest else (b, w) :: Memory.insert rest a v

/-- `BUF[a] <- v` (R14). Writing what an unlisted address reads as removes the entry. -/
def Memory.write (m : Memory) (a : Nat) (v : Byte) : Memory :=
  if v = Memory.unlisted then m.erase a else (m.erase a).insert a v

/-- `MemRead(a, n)`: the bytes `BUF[a], ..., BUF[a+n-1]` (R15). -/
def Memory.readBytes (m : Memory) (a n : Nat) : List Byte :=
  (List.range n).map fun k => m.read (a + k)

/-- `MemWrite(a, n, v)`: byte `k` of `v` goes to `BUF[a+k]` (R15). -/
def Memory.writeBytes (m : Memory) (a : Nat) : List Byte → Memory
  | [] => m
  | v :: vs => Memory.writeBytes (m.write a v) (a + 1) vs

/-- `for i from 0 to n-1: BUF[i] <- f i BUF[i]` (R120 to R140). -/
def Memory.mapBytes (m : Memory) (f : Nat → Byte → Byte) : Nat → Memory
  | 0 => m
  | n + 1 => (Memory.mapBytes m f n).write n (f n ((Memory.mapBytes m f n).read n))

/-! ## The pin space (R15, R23) -/

/-- The value `v` with bit `k` set to `b`. -/
def setBit {w : Nat} (v : BitVec w) (k : Nat) (b : Bool) : BitVec w :=
  if b then v ||| BitVec.twoPow w k else v &&& ~~~(BitVec.twoPow w k)

/-- `BitRead(p)` is `BUF[p div 8][p mod 8]` (R15). -/
def Memory.readPin (m : Memory) (p : Nat) : Bool :=
  (m.read (p / 8)).getLsbD (p % 8)

/-- `BitWrite(p, b)` "sets that one bit to the 1-bit value `b`" (R15). -/
def Memory.writePin (m : Memory) (p : Nat) (b : Bool) : Memory :=
  m.write (p / 8) (setBit (m.read (p / 8)) (p % 8) b)

/-- The 16-bit `r` of RDSEG after `for j from 0 to count-1: r[j] <- BitRead(start + j)` (R160). -/
def Memory.readSegment (m : Memory) (start : Nat) : Nat → BitVec 16
  | 0 => 0#16
  | j + 1 => setBit (Memory.readSegment m start j) j (m.readPin (start + j))

/-- `for j from 0 to count-1: BitWrite(start + j, value[j])` (R164). -/
def Memory.writeSegment (m : Memory) (start : Nat) (value : BitVec 16) : Nat → Memory
  | 0 => m
  | j + 1 => (Memory.writeSegment m start value j).writePin (start + j) (value.getLsbD j)

/-! ## Configuration -/

/-- `N` as a natural number. -/
def Cfg.count (c : Cfg) : Nat := c.n.toNat

/-- `MAXBIT = 8*N - 1` (R6, R25). With `N = 0`, which no block has, it is 0 (log entry 16). -/
def Cfg.maxBit (c : Cfg) : Nat := 8 * c.count - 1

/-- The pin a line is on (R7). -/
def Cfg.pin (c : Cfg) : Line → PinId
  | .data => c.pinData
  | .clk => c.pinClk
  | .latch => c.pinLatch

/-! ## The chain reference model (R191 to R196) -/

/-- A shift-clock rising edge: `SH <- ((SH << 1) | LV_DATA) mod 2^(8*M)` (R192). -/
def Chain.shift (c : Chain) (bit : Bool) : Chain :=
  { c with sh := ((c.sh <<< 1) ||| bit.toNat) % 2 ^ (8 * c.m) }

/-- A latch rising edge: `ST <- SH` (R194). -/
def Chain.latch (c : Chain) : Chain := { c with st := c.sh }

/-- Output `Q_k` of register `i` shows chain position `8*i + k` (R196, general knowledge X1: PRESUMED, log entry 14). -/
def Chain.output (c : Chain) (i k : Nat) : Bool := c.st.testBit (8 * i + k)

/-- Whether raising a line whose level was `old` is a rising edge (R193): from 0 it is, from 1 it is none, and from ⊥ it
may or may not be one. -/
def risingEdge (old : Option Level) (draw : Nat) : Bool :=
  match old with
  | some false => true
  | some true => false
  | none => Config.undrivenEdge draw

/-- The level a data line shows the chain: any value while it is not driven (U1). -/
def shownLevel (lv : Option Level) (draw : Nat) : Bool :=
  match lv with
  | some b => b
  | none => Config.undrivenData draw

/-- The chain after `Drive(line, level)`, from the levels before it: only rising edges of the two clocks act (R195; in
part general knowledge X2, X3: PRESUMED, log entry 14). -/
def State.chainAfter (s : State) (line : Line) (level : Level) : Chain :=
  match line, level with
  | .clk, true =>
    if risingEdge s.lvClk s.draws then s.chain.shift (shownLevel s.lvData s.draws) else s.chain
  | .latch, true => if risingEdge s.lvLatch s.draws then s.chain.latch else s.chain
  | .clk, false => s.chain
  | .latch, false => s.chain
  | .data, _ => s.chain

/-- The free values `Drive(line, level)` may use up: one when it raises a clock while a line is not driven. -/
def State.drawsAfter (s : State) (line : Line) (level : Level) : Nat :=
  match line, level with
  | .clk, true => if s.lvClk.isNone || s.lvData.isNone then s.draws + 1 else s.draws
  | .latch, true => if s.lvLatch.isNone then s.draws + 1 else s.draws
  | .clk, false => s.draws
  | .latch, false => s.draws
  | .data, _ => s.draws

/-! ## The PinDriver (R17) -/

/-- The level last driven on a line (R26). -/
def State.level (s : State) : Line → Option Level
  | .data => s.lvData
  | .clk => s.lvClk
  | .latch => s.lvLatch

/-- `LV_*` of a line set. -/
def State.setLevel (s : State) (line : Line) (level : Level) : State :=
  match line with
  | .data => { s with lvData := some level }
  | .clk => { s with lvClk := some level }
  | .latch => { s with lvLatch := some level }

/-- One event appended to `TRACE` (R30). -/
def State.logEvent (s : State) (e : Event) : State :=
  { s with trace := s.trace ++ [e] }

/-- `Drive(pin, level)` on a line's pin: the chain sees the edge, `LV_*` is set, the call is appended to `TRACE`
(R17, R26, R191 to R195). -/
def State.drive (s : State) (line : Line) (level : Level) : State :=
  ({ s with chain := s.chainAfter line level, draws := s.drawsAfter line level }.setLevel line level).logEvent
    (.drive (s.cfg.pin line) level)

/-- `Delay(T_HOLD)`, also when `T_HOLD` is 0 (R17, R184). -/
def State.delay (s : State) : State :=
  s.logEvent (.delay s.cfg.tHold)

/-- `Configure(pin)` on a line's pin (R17). The call "may itself produce an edge on a line", and until the first latch
edge the chain holds any value (R266), so the chain is drawn afresh. The level stays ⊥ (R267). -/
def State.configure (s : State) (line : Line) : State :=
  { s with
    chain := { s.chain with
      sh := Config.chainShiftStage s.draws % 2 ^ (8 * s.chain.m)
      st := Config.chainOutputs s.draws % 2 ^ (8 * s.chain.m) }
    draws := s.draws + 1 }.logEvent (.configure (s.cfg.pin line))

/-- One call of the frame. -/
def State.perform (s : State) : PinCall → State
  | .drive line level => s.drive line level
  | .hold => s.delay

/-- The calls made in order. -/
def State.runCalls (s : State) (calls : List PinCall) : State :=
  calls.foldl State.perform s

/-! ## The frame (R182 to R188) -/

/-- The four calls that send one bit (R184). -/
def bitSlot (b : Bool) : List PinCall :=
  [.drive .clk false, .drive .data b, .hold, .drive .clk true]

/-- `for j from k-1 downto 0`: the slots of a byte's bits `k-1` to 0 (R184). -/
def byteSlots (b : Byte) : Nat → List PinCall
  | 0 => []
  | j + 1 => bitSlot (b.getLsbD j) ++ byteSlots b j

/-- `for i from n-1 downto 0`: the slots of the bytes `n-1` to 0 of the snapshot (R184). -/
def bufferSlots (snap : List Byte) : Nat → List PinCall
  | 0 => []
  | i + 1 => byteSlots (snap.getD i 0x00#8) 8 ++ bufferSlots snap i

/-- The calls of one frame of `n` bytes (R184). -/
def frameCalls (snap : List Byte) (n : Nat) : List PinCall :=
  [.drive .latch false] ++ bufferSlots snap n ++ [.drive .latch true]

/-- The line calls of TRANSMIT: the frame of a snapshot of `BUF` taken at its start (R183, R184). -/
def State.sendFrame (s : State) : State :=
  s.runCalls (frameCalls (s.buf.readBytes 0 s.cfg.count) s.cfg.count)

end Sys2Proof.Machine
end

