-- ==== Sys2Proof/Machine/Flags.lean ====
section
/-! DEFINITION. The response, the block's only status (spec/10_state.md rules R28, R29), its codes and its word
(spec/30_encoding.md rule R81, spec/60_exceptions.md rule R220). The block has no condition codes. -/

namespace Sys2Proof.Machine

/-- The number of a status (R220). -/
def Status.code : Status → Byte
  | .ok => 0x00#8
  | .pinOutOfRange => 0x01#8
  | .nullOrMissingBuffer => 0x02#8
  | .lengthMismatch => 0x03#8
  | .illegalCommand => 0x04#8

/-- The response word: `STATUS[31:24]`, `[23:16]` always 0, `DATA[15:0]` (R81). `OUTPAYLOAD` follows it. -/
def Response.word (r : Response) : BitVec 32 := r.status.code ++ 0#8 ++ r.data

/-- `resp <- (status, data, out)`: all three fields are written (R19, R28). -/
def State.respond (s : State) (status : Status) (data : BitVec 16) (out : List Byte) : State :=
  { s with resp := ⟨status, data, out⟩ }

/-- `resp <- (OK, 0, empty)`. -/
def State.done (s : State) : State := s.respond .ok 0#16 []

/-- `raise E`: "the command finishes with status `E`", no state of the block changes, "The response data is 0" (R16;
log entry 17). -/
def State.raise (s : State) (e : Status) : State := s.respond e 0#16 []

/-- The response delivered to the host (R236, R240). -/
def State.deliver (s : State) : State :=
  { s with delivered := s.delivered ++ [s.resp] }

/-- The bytes of a command taken off the host's link (R75). -/
def State.accept (s : State) (rest : List Byte) : State :=
  { s with port := rest }

/-- A command that ran to completion delivers its response (R21, R236). -/
def deliverOutcome : Host.Outcome State Fault Refusal → Host.Outcome State Fault Refusal
  | .next s => .next s.deliver
  | .fault f => .fault f
  | .refused r => .refused r

/-- An illegal command: it "finishes with `IllegalCommand`, has no other effect" (R80, R224). -/
def execIllegal (s : State) : Host.Outcome State Fault Refusal :=
  .next (s.raise .illegalCommand)

end Sys2Proof.Machine
end

