-- ==== Sys2Proof/Machine/Operands.lean ====
section
/-! DEFINITION. The operand checks every command makes before it changes anything (R227): a pin
(spec/40_bit_ops.md rule R100), a payload (spec/41_bulk_masked_ops.md rule R119), a segment (spec/42_segment_ops.md
rule R159). Each answers the status to raise, or none. -/

namespace Sys2Proof.Machine

/-- `if pin > MAXBIT: raise PinOutOfRange` (R100, R103, R106). -/
def checkPin (c : Cfg) (pin : PinIndex) : Option Status :=
  if pin.toNat > c.maxBit then some .pinOutOfRange else none

/-- `CheckSegment(start, count)`, in unbounded naturals (R159, R68). -/
def checkSegment (c : Cfg) (start : PinIndex) (count : BitVec 8) : Option Status :=
  if count.toNat < 1 ∨ count.toNat > 16 then some .pinOutOfRange
  else if start.toNat + count.toNat - 1 > c.maxBit then some .pinOutOfRange
  else none

/-- `CheckPayload()` for one buffer (R119). -/
def checkPayload (c : Cfg) : Option (List Byte) → Option Status
  | none => some .nullOrMissingBuffer
  | some b => if b.length ≠ c.count then some .lengthMismatch else none

/-- `CheckPayload()` for the two buffers of an MSTAMP, which one `A` and one `L` describe (R119, R140). No word
spells two of different lengths; such a pair is refused too (log entry 10). -/
def checkPayloadPair (c : Cfg) : Option (List Byte × List Byte) → Option Status
  | none => some .nullOrMissingBuffer
  | some (m, v) => if m.length ≠ c.count ∨ v.length ≠ c.count then some .lengthMismatch else none

/-- A command whose checks gave `check`: raise the status, or have the effect (R226, R227). -/
def State.checked (s : State) (check : Option Status) (effect : State) : Host.Outcome State Fault Refusal :=
  match check with
  | some e => .next (s.raise e)
  | none => .next effect

/-- Byte `i` of a buffer operand (R53). A buffer that has passed its check has every byte asked for. -/
def bufferByte (b : List Byte) (i : Nat) : Byte := b.getD i 0x00#8

/-- A masked operation over all `N` bytes, `BUF[i] <- f BUF[i] MASK[i]` (R122, R123). -/
def State.masked (s : State) (f : Byte → Byte → Byte) (mask : List Byte) : State :=
  { s with buf := s.buf.mapBytes (fun i old => f old (bufferByte mask i)) s.cfg.count }

/-- A one-buffer masked command: the payload check, then the operation, then `(OK, 0, empty)` (R124, R128, R132). -/
def State.execMasked (s : State) (f : Byte → Byte → Byte) (mask : Option (List Byte)) :
    Host.Outcome State Fault Refusal :=
  s.checked (checkPayload s.cfg mask) (s.masked f (mask.getD [])).done

end Sys2Proof.Machine
end

