-- ==== Sys2Proof/Machine/BitOps.lean ====
section
/-! DEFINITION. The single-pin commands GET, SET and TOGGLE (spec/40_bit_ops.md). -/

namespace Sys2Proof.Machine

/-- GET: `resp <- (OK, zext_16(BitRead(pin)), empty)` (R100). -/
def execGet (pin : PinIndex) (s : State) : Host.Outcome State Fault Refusal :=
  s.checked (checkPin s.cfg pin)
    (s.respond .ok ((BitVec.ofBool (s.buf.readPin pin.toNat)).setWidth 16) [])

/-- SET: `BitWrite(pin, bit)` (R103). -/
def execSet (pin : PinIndex) (bit : Bool) (s : State) : Host.Outcome State Fault Refusal :=
  s.checked (checkPin s.cfg pin)
    { s with buf := s.buf.writePin pin.toNat bit }.done

/-- TOGGLE: `BitWrite(pin, 1 - BitRead(pin))` (R106). -/
def execToggle (pin : PinIndex) (s : State) : Host.Outcome State Fault Refusal :=
  s.checked (checkPin s.cfg pin)
    { s with buf := s.buf.writePin pin.toNat (!s.buf.readPin pin.toNat) }.done

end Sys2Proof.Machine
end

