-- ==== Sys2Proof/Machine/BulkOps.lean ====
section
/-! DEFINITION. The whole-buffer commands FILL, MSET, MRESET, MTOGGLE, OVERWRITE, MSTAMP and READBUF
(spec/41_bulk_masked_ops.md). -/

namespace Sys2Proof.Machine

/-- FILL: `for i from 0 to N-1: BUF[i] <- byteValue` (R120). -/
def execFill (byteValue : Byte) (s : State) : Host.Outcome State Fault Refusal :=
  .next { s with buf := s.buf.mapBytes (fun _ _ => byteValue) s.cfg.count }.done

/-- MSET: `BUF[i] <- BUF[i] | MASK[i]` (R124). -/
def execMset (mask : Option (List Byte)) (s : State) : Host.Outcome State Fault Refusal :=
  s.execMasked (fun old m => old ||| m) mask

/-- MRESET: `BUF[i] <- BUF[i] & ~MASK[i]` (R128). -/
def execMreset (mask : Option (List Byte)) (s : State) : Host.Outcome State Fault Refusal :=
  s.execMasked (fun old m => old &&& ~~~m) mask

/-- MTOGGLE: `BUF[i] <- BUF[i] ^ MASK[i]` (R132). -/
def execMtoggle (mask : Option (List Byte)) (s : State) : Host.Outcome State Fault Refusal :=
  s.execMasked (fun old m => old ^^^ m) mask

/-- OVERWRITE: `MemWrite(0, N, NEW)` (R136). -/
def execOverwrite (new : Option (List Byte)) (s : State) : Host.Outcome State Fault Refusal :=
  s.checked (checkPayload s.cfg new)
    { s with buf := s.buf.writeBytes 0 (new.getD []) }.done

/-- MSTAMP's effect: `BUF[i] <- (BUF[i] & ~MASK[i]) | (VAL[i] & MASK[i])` for every `i` (R140). -/
def State.stamp (s : State) (mask val : List Byte) : State :=
  { s with
    buf := s.buf.mapBytes
      (fun i old => (old &&& ~~~(bufferByte mask i)) ||| (bufferByte val i &&& bufferByte mask i)) s.cfg.count }

/-- MSTAMP: copy the selected pins from a value buffer (R140). -/
def execMstamp (maskVal : Option (List Byte × List Byte)) (s : State) : Host.Outcome State Fault Refusal :=
  s.checked (checkPayloadPair s.cfg maskVal)
    (s.stamp (maskVal.getD ([], [])).1 (maskVal.getD ([], [])).2).done

/-- READBUF: `resp <- (OK, 0, MemRead(0, N))` (R144). -/
def execReadbuf (s : State) : Host.Outcome State Fault Refusal :=
  .next (s.respond .ok 0#16 (s.buf.readBytes 0 s.cfg.count))

end Sys2Proof.Machine
end

