-- ==== Sys2Proof/Machine/SegmentOps.lean ====
section
/-! DEFINITION. The segment commands RDSEG and WRSEG (spec/42_segment_ops.md). -/

namespace Sys2Proof.Machine

/-- RDSEG: the pins `start .. start+count-1` as a right-aligned value (R160). -/
def execRdseg (start : PinIndex) (count : BitVec 8) (s : State) : Host.Outcome State Fault Refusal :=
  s.checked (checkSegment s.cfg start count)
    (s.respond .ok (s.buf.readSegment start.toNat count.toNat) [])

/-- WRSEG: the low `count` bits of `value` to the pins `start .. start+count-1` (R164, R165). -/
def execWrseg (start : PinIndex) (count : BitVec 8) (value : BitVec 16) (s : State) :
    Host.Outcome State Fault Refusal :=
  s.checked (checkSegment s.cfg start count)
    { s with buf := s.buf.writeSegment start.toNat value count.toNat }.done

end Sys2Proof.Machine
end

