-- ==== Sys2Proof/Machine/Transmitter.lean ====
section
/-! DEFINITION. The command TRANSMIT (spec/44_transmitter.md), and construction, which runs it once
(spec/70_reset_and_hazards.md section 1). -/

namespace Sys2Proof.Machine

/-- TRANSMIT: the frame, then `resp <- (OK, 0, empty)` (R184), in one step (R281; log entry 12). -/
def State.transmit (s : State) : State := s.sendFrame.done

/-- TRANSMIT (R184). It always finishes with `OK` (R189). -/
def execTransmit (s : State) : Host.Outcome State Fault Refusal :=
  .next s.transmit

/-- Which construction parameters are legal (R261): `N` in 1..255, the three pins distinct, a supplied seed of length
`N`. -/
def constructLegal (p : ConstructParams) : Bool :=
  1 ≤ p.registerCount && p.registerCount ≤ 255 &&
  p.pinData != p.pinClk && p.pinData != p.pinLatch && p.pinClk != p.pinLatch &&
  match p.seed with
  | none => true
  | some b => b.length == p.registerCount

/-- `CFG <- (N, PIN_DATA, PIN_CLK, PIN_LATCH, T_HOLD or 10)` (R262). -/
def constructCfg (p : ConstructParams) : Cfg where
  n := BitVec.ofNat 8 p.registerCount
  pinData := p.pinData
  pinClk := p.pinClk
  pinLatch := p.pinLatch
  tHold := p.hold.getD Config.defaultHold

/-- The initial content: `SEED[i]` if a seed is supplied, else 0x00 (R262). -/
def constructBuf (p : ConstructParams) : Memory :=
  Memory.writeBytes [] 0 (p.seed.getD (List.replicate p.registerCount 0x00#8))

/-- A new block: "A new construction starts from rule R262 with `BUF` re-seeded" (R265), and no line driven yet (R34;
log entry 15). -/
def State.fresh (s : State) (p : ConstructParams) : State :=
  { s with
    cfg := constructCfg p
    buf := []
    lvData := none
    lvClk := none
    lvLatch := none
    trace := []
    request := none }

/-- `Construct`: the steps of R262 in order, or a refusal (R261). The response of its TRANSMIT is not delivered (R263).
-/
def construct (p : ConstructParams) (s : State) : Host.Outcome State Fault Refusal :=
  if constructLegal p then
    let configured := (((s.fresh p).configure .data).configure .clk).configure .latch
    let filled := { configured with buf := constructBuf p }
    .next { filled.transmit with phase := .ready }
  else .refused .illegalConstruction

end Sys2Proof.Machine
end

