-- ==== Sys2Proof/Machine/Dispatch.lean ====
section
/-! DEFINITION. One arm per command of the opcode map (spec/30_encoding.md rule R79). -/

namespace Sys2Proof.Machine

def exec (i : Instr) (s : State) : Host.Outcome State Fault Refusal :=
  match i with
  | .get pin => Sys2Proof.Machine.execGet pin s
  | .set pin bit => Sys2Proof.Machine.execSet pin bit s
  | .toggle pin => Sys2Proof.Machine.execToggle pin s
  | .fill byteValue => Sys2Proof.Machine.execFill byteValue s
  | .mset mask => Sys2Proof.Machine.execMset mask s
  | .mreset mask => Sys2Proof.Machine.execMreset mask s
  | .mtoggle mask => Sys2Proof.Machine.execMtoggle mask s
  | .rdseg start count => Sys2Proof.Machine.execRdseg start count s
  | .wrseg start count value => Sys2Proof.Machine.execWrseg start count value s
  | .overwrite new => Sys2Proof.Machine.execOverwrite new s
  | .mstamp maskVal => Sys2Proof.Machine.execMstamp maskVal s
  | .readbuf => Sys2Proof.Machine.execReadbuf s
  | .transmit => Sys2Proof.Machine.execTransmit s

end Sys2Proof.Machine
end

