-- ==== Sys2Proof/Machine/Step.lean ====
section
/-! DEFINITION. One step of the machine: a construction while the block is unbuilt, else one command of the host
(spec/10_state.md rules R21, R27). -/

namespace Sys2Proof.Machine

/-- One step. An unbuilt block runs the host's construction request, and refuses to step without one. A ready block takes
one command off the port, consumes its payload whatever the outcome, runs it and delivers its response; with no complete
command there it waits (R21, R27, R75, R236, R275). -/
def step (s : State) : Host.Outcome State Fault Refusal :=
  match s.phase with
  | .unbuilt =>
    match s.request with
    | none => .refused .notReady
    | some p => construct p s
  | .ready =>
    match decode s.port with
    | .shortWord => .fault .awaitingCommand
    | .shortPayload => .fault .awaitingPayload
    | .illegal _ rest => deliverOutcome (execIllegal (s.accept rest))
    | .command i rest => deliverOutcome (exec i (s.accept rest))

/-- `s` with the instruction of a table row's bits as the next thing the host sends (log entry 3). -/
def State.withFetchWord (s : State) (nbits w : Nat) : State :=
  { s with port := tableBytes nbits w ++ s.port }

end Sys2Proof.Machine
end

