-- ==== Sys2Proof/Machine/Assembler.lean ====
section
/-! DEFINITION. The command assembly notation (spec/30_encoding.md rules R82 to R84): how a line of text is read, what the
assembler rejects, and what a pseudo-instruction expands to. It is notation only (decision D21): nothing of the machine
depends on it. -/

namespace Sys2Proof.Machine

/-! ## Commands and pseudo-instructions (R82, R83) -/

/-- A buffer operand: a byte list, or `-`, an absent buffer (R82). -/
abbrev AsmBuffer := Option (List Nat)

/-- The command forms of R82, their operands plain numbers. -/
inductive AsmCommand where
  | get (p : Nat)
  | set (p b : Nat)
  | toggle (p : Nat)
  | fill (v : Nat)
  | mset (m : AsmBuffer)
  | mreset (m : AsmBuffer)
  | mtoggle (m : AsmBuffer)
  | mstamp (m v : AsmBuffer)
  | rdseg (s c : Nat)
  | wrseg (s c v : Nat)
  | overwrite (m : AsmBuffer)
  | readbuf
  | transmit
deriving DecidableEq, Repr

/-- The pseudo-instructions of R83. -/
inductive AsmPseudo where
  | setall
  | clrall
  | toggleall
  | write (p b : Nat)
  | stamp (m : AsmBuffer)
  | wrport (s c v : Nat)
  | rdport (s c : Nat)
deriving DecidableEq, Repr

/-- A line of assembly: one command, or one pseudo-instruction. -/
inductive AsmLine where
  | command (c : AsmCommand)
  | pseudo (p : AsmPseudo)
deriving DecidableEq, Repr

/-- The expansion of a pseudo-instruction for a block of `n` registers (R83). -/
def AsmPseudo.expand (n : Nat) : AsmPseudo → List AsmCommand
  | .setall => [.fill 0xFF]
  | .clrall => [.fill 0x00]
  | .toggleall => [.mtoggle (some (List.replicate n 0xFF))]
  | .write p b => [.set p b, .transmit]
  | .stamp m => [.overwrite m, .transmit]
  | .wrport s c v => [.wrseg s c v, .transmit]
  | .rdport s c => [.rdseg s c]

/-! ## Operands that fit their fields (R84) -/

/-- An operand that fits a field of `w` bits; one that does not is rejected (R84). -/
def fitField (w x : Nat) : Option (BitVec w) :=
  if x < 2 ^ w then some (BitVec.ofNat w x) else none

/-- `b` is 0 or 1 (R82). -/
def fitBit (b : Nat) : Option Bool :=
  if b = 0 then some false else if b = 1 then some true else none

/-- The bytes of a buffer, each fitting a byte (DEDUCED, log entry 11). -/
def fitBytes : List Nat → Option (List Byte)
  | [] => some []
  | x :: xs =>
    match fitField 8 x, fitBytes xs with
    | some b, some bs => some (b :: bs)
    | _, _ => none

/-- A buffer whose bytes fit and whose length fits `L` (DEDUCED, log entry 11), or an absent one (R82). -/
def fitBuffer : AsmBuffer → Option (Option (List Byte))
  | none => some none
  | some xs => if xs.length < 256 then (fitBytes xs).map some else none

/-- "Both buffers of one MSTAMP must be the same length" (R82), and one `A` describes both (R140). -/
def fitBufferPair (m v : AsmBuffer) : Option (Option (List Byte × List Byte)) :=
  match fitBuffer m, fitBuffer v with
  | some none, some none => some none
  | some (some mb), some (some vb) => if mb.length = vb.length then some (some (mb, vb)) else none
  | _, _ => none

/-- The command a line's operands assemble to; none where the assembler rejects an operand (R84). An operand that fits its
field but is out of range for the block assembles. -/
def AsmCommand.assemble : AsmCommand → Option Instr
  | .get p => (fitField 16 p).map .get
  | .set p b => (fitField 16 p).bind fun p => (fitBit b).map (.set p)
  | .toggle p => (fitField 16 p).map .toggle
  | .fill v => (fitField 8 v).map .fill
  | .mset m => (fitBuffer m).map .mset
  | .mreset m => (fitBuffer m).map .mreset
  | .mtoggle m => (fitBuffer m).map .mtoggle
  | .mstamp m v => (fitBufferPair m v).map .mstamp
  | .rdseg s c => (fitField 16 s).bind fun s => (fitField 8 c).map (.rdseg s)
  | .wrseg s c v => (fitField 16 s).bind fun s => (fitField 8 c).bind fun c => (fitField 16 v).map (.wrseg s c)
  | .overwrite m => (fitBuffer m).map .overwrite
  | .readbuf => some .readbuf
  | .transmit => some .transmit

/-- The commands of a line for a block of `n` registers, in order (R83). -/
def AsmLine.commands (n : Nat) : AsmLine → List AsmCommand
  | .command c => [c]
  | .pseudo p => p.expand n

/-- Every command of a list assembled, or none where one is rejected. -/
def assembleAll : List AsmCommand → Option (List Instr)
  | [] => some []
  | c :: cs =>
    match c.assemble, assembleAll cs with
    | some i, some is => some (i :: is)
    | _, _ => none

/-! ## Reading a line of text (R82) -/

/-- The pieces of a line. -/
inductive AsmToken where
  | word (cs : List Char)
  | comma
  | openList
  | closeList
  | dash
deriving DecidableEq, Repr

/-- A word that has ended (its characters last first), put before the tokens after it. -/
def endWord (cur : List Char) (rest : List AsmToken) : List AsmToken :=
  match cur with
  | [] => rest
  | c :: cs => .word (c :: cs).reverse :: rest

/-- A line cut into tokens; `;` starts a comment (R82). The codes 123 and 125 are the braces of a byte list. -/
def tokens (cur : List Char) : List Char → List AsmToken
  | [] => endWord cur []
  | c :: cs =>
    if c = ';' then endWord cur []
    else if c = ' ' ∨ c = '\t' then endWord cur (tokens [] cs)
    else if c = ',' then endWord cur (.comma :: tokens [] cs)
    else if c = '-' then endWord cur (.dash :: tokens [] cs)
    else if c.toNat = 123 then endWord cur (.openList :: tokens [] cs)
    else if c.toNat = 125 then endWord cur (.closeList :: tokens [] cs)
    else tokens (c :: cur) cs

/-- The value of a digit. -/
def digit (c : Char) : Option Nat :=
  if 48 ≤ c.toNat ∧ c.toNat ≤ 57 then some (c.toNat - 48)
  else if 97 ≤ c.toNat ∧ c.toNat ≤ 102 then some (c.toNat - 87)
  else if 65 ≤ c.toNat ∧ c.toNat ≤ 70 then some (c.toNat - 55)
  else none

/-- Digits of a base, read after a number `acc`. -/
def digits (base acc : Nat) : List Char → Option Nat
  | [] => some acc
  | c :: cs =>
    match digit c with
    | some d => if d < base then digits base (acc * base + d) cs else none
    | none => none

/-- "A number is written in decimal, `0x` hex or `0b` binary" (R82). -/
def number : List Char → Option Nat
  | [] => none
  | '0' :: 'x' :: c :: cs => digits 16 0 (c :: cs)
  | '0' :: 'b' :: c :: cs => digits 2 0 (c :: cs)
  | c :: cs => digits 10 0 (c :: cs)

/-- An operand: a number or a buffer. -/
inductive AsmOperand where
  | num (x : Nat)
  | buf (m : AsmBuffer)
deriving DecidableEq, Repr

/-- The rest of a byte list after its opening brace or a comma, and the tokens after the list. -/
def byteList (acc : List Nat) : List AsmToken → Option (List Nat × List AsmToken)
  | .word cs :: .comma :: rest =>
    match number cs with
    | some x => byteList (acc ++ [x]) rest
    | none => none
  | .word cs :: .closeList :: rest => (number cs).map fun x => (acc ++ [x], rest)
  | _ => none

/-- One operand, and the tokens after it. -/
def operand : List AsmToken → Option (AsmOperand × List AsmToken)
  | .word cs :: rest => (number cs).map fun x => (.num x, rest)
  | .dash :: rest => some (.buf none, rest)
  | .openList :: .closeList :: rest => some (.buf (some []), rest)
  | .openList :: rest => (byteList [] rest).map fun r => (.buf (some r.1), r.2)
  | _ => none

/-- One or more operands with commas between them; `fuel` bounds their number. -/
def operands : Nat → List AsmToken → Option (List AsmOperand)
  | 0, _ => none
  | fuel + 1, ts =>
    match operand ts with
    | some (o, []) => some [o]
    | some (o, .comma :: rest) => (operands fuel rest).map (o :: ·)
    | _ => none

/-- The forms of R82 and R83. An absent MSTAMP is written with one `-` or two (DEDUCED, log entry 11). -/
def lineOf (mnemonic : List Char) (ops : List AsmOperand) : Option AsmLine :=
  match mnemonic, ops with
  | ['G', 'E', 'T'], [.num p] => some (.command (.get p))
  | ['S', 'E', 'T'], [.num p, .num b] => some (.command (.set p b))
  | ['T', 'O', 'G', 'G', 'L', 'E'], [.num p] => some (.command (.toggle p))
  | ['F', 'I', 'L', 'L'], [.num v] => some (.command (.fill v))
  | ['M', 'S', 'E', 'T'], [.buf m] => some (.command (.mset m))
  | ['M', 'R', 'E', 'S', 'E', 'T'], [.buf m] => some (.command (.mreset m))
  | ['M', 'T', 'O', 'G', 'G', 'L', 'E'], [.buf m] => some (.command (.mtoggle m))
  | ['M', 'S', 'T', 'A', 'M', 'P'], [.buf m, .buf v] => some (.command (.mstamp m v))
  | ['M', 'S', 'T', 'A', 'M', 'P'], [.buf none] => some (.command (.mstamp none none))
  | ['R', 'D', 'S', 'E', 'G'], [.num s, .num c] => some (.command (.rdseg s c))
  | ['W', 'R', 'S', 'E', 'G'], [.num s, .num c, .num v] => some (.command (.wrseg s c v))
  | ['O', 'V', 'E', 'R', 'W', 'R', 'I', 'T', 'E'], [.buf m] => some (.command (.overwrite m))
  | ['R', 'E', 'A', 'D', 'B', 'U', 'F'], [] => some (.command .readbuf)
  | ['T', 'R', 'A', 'N', 'S', 'M', 'I', 'T'], [] => some (.command .transmit)
  | ['S', 'E', 'T', 'A', 'L', 'L'], [] => some (.pseudo .setall)
  | ['C', 'L', 'R', 'A', 'L', 'L'], [] => some (.pseudo .clrall)
  | ['T', 'O', 'G', 'G', 'L', 'E', 'A', 'L', 'L'], [] => some (.pseudo .toggleall)
  | ['W', 'R', 'I', 'T', 'E'], [.num p, .num b] => some (.pseudo (.write p b))
  | ['S', 'T', 'A', 'M', 'P'], [.buf m] => some (.pseudo (.stamp m))
  | ['W', 'R', 'P', 'O', 'R', 'T'], [.num s, .num c, .num v] => some (.pseudo (.wrport s c v))
  | ['R', 'D', 'P', 'O', 'R', 'T'], [.num s, .num c] => some (.pseudo (.rdport s c))
  | _, _ => none

/-- A line of text: nothing on it, one line of assembly, or (none) no assembly at all. -/
def readLine (text : List Char) : Option (Option AsmLine) :=
  match tokens [] text with
  | [] => some none
  | [.word w] => (lineOf w []).map some
  | .word w :: rest => ((operands rest.length rest).bind (lineOf w)).map some
  | _ => none

/-- The commands a line of text assembles to, for a block of `n` registers: "one command per line", two for some
pseudo-instructions, none for a line with nothing but a comment (R82 to R84). -/
def assembleText (n : Nat) (text : List Char) : Option (List Instr) :=
  match readLine text with
  | none => none
  | some none => some []
  | some (some line) => assembleAll (line.commands n)

end Sys2Proof.Machine
end

