-- ==== Sys2Proof/Safety.lean ====
section
/-! DEFINITION. The terms in which claims about the machine are stated: the number a buffer spells, the events a frame's calls
append, the levels a trace last drove, and the invariant of the machine. -/

namespace Sys2Proof.Machine

/-- `BUF[n-1] ++ ... ++ BUF[0]` as a number: the `F` of R197, in which pin `p` has weight `2^p` (R52). -/
def Memory.number (m : Memory) : Nat → Nat
  | 0 => 0
  | n + 1 => Memory.number m n + (m.read n).toNat * 2 ^ (8 * n)

/-- The event a call appends to `TRACE` (R17, R30). -/
def PinCall.event (c : Cfg) : PinCall → Event
  | .drive line level => .drive (c.pin line) level
  | .hold => .delay c.tHold

/-- The level a list of PinDriver calls last drove on a pin, starting from `lv` (R26). -/
def lastDriven (pin : PinId) (lv : Option Level) : List Event → Option Level
  | [] => lv
  | .drive p level :: rest => lastDriven pin (if p = pin then some level else lv) rest
  | .configure _ :: rest => lastDriven pin lv rest
  | .delay _ :: rest => lastDriven pin lv rest

/-- The microseconds of the `Delay` calls of a trace (R280). -/
def delayTotal : List Event → Nat
  | [] => 0
  | .delay n :: rest => n + delayTotal rest
  | .drive _ _ :: rest => delayTotal rest
  | .configure _ :: rest => delayTotal rest

/-- Commands run one after the other, as the host issues them (R19, R62); the first stop ends the run. -/
def runCommands : List Instr → State → Host.Outcome State Fault Refusal
  | [], s => .next s
  | i :: rest, s =>
    match exec i s with
    | .next t => runCommands rest t
    | .fault f => .fault f
    | .refused r => .refused r

/-- Legal configuration values (R25): `N` is not 0, and the three pins are pairwise distinct. -/
def Cfg.Legal (c : Cfg) : Prop :=
  1 ≤ c.count ∧ c.pinData ≠ c.pinClk ∧ c.pinData ≠ c.pinLatch ∧ c.pinClk ≠ c.pinLatch

/-- `BUF` is in canonical form and lists no byte outside `0..N-1` (R22, R50). -/
def State.BufInv (s : State) : Prop :=
  s.buf.wf = true ∧ ∀ a, s.cfg.count ≤ a → s.buf.read a = Memory.unlisted

/-- The lines as a frame leaves them and a block between commands holds them (R186, R235), and each level the last one
`TRACE` drove on its pin (R26). -/
def State.LineInv (s : State) : Prop :=
  s.lvClk = some true ∧ s.lvLatch = some true ∧ s.lvData ≠ none ∧
  s.lvData = lastDriven s.cfg.pinData none s.trace ∧
  s.lvClk = lastDriven s.cfg.pinClk none s.trace ∧
  s.lvLatch = lastDriven s.cfg.pinLatch none s.trace

/-- The chain's two stages are `8*M`-bit numbers (R31). -/
def State.ChainInv (s : State) : Prop :=
  s.chain.sh < 2 ^ (8 * s.chain.m) ∧ s.chain.st < 2 ^ (8 * s.chain.m)

/-- A response that reports a failure carries no data (R28, R81). -/
def Response.Sound (r : Response) : Prop :=
  r.status ≠ .ok → r.data = 0#16 ∧ r.out = []

/-- The invariant of a block that is ready. -/
def State.Inv (s : State) : Prop :=
  s.phase = .ready → s.cfg.Legal ∧ s.BufInv ∧ s.LineInv ∧ s.ChainInv ∧ s.resp.Sound

end Sys2Proof.Machine
end

