-- ==== Sys2Proof/Certificates/Slice0/Obligations.lean ====
section
/-! DEFINITION. The statements about SRGX-CT. Each docstring names the rules of spec/ it formalises. -/

open Sys2Proof Sys2Proof.Machine

/-! ## Terms -/

/-- The rows of spec/opcode_table.json as (mask, match): GET, SET, TOGGLE, FILL, MSET, MRESET, MTOGGLE, RDSEG, WRSEG,
OVERWRITE, MSTAMP, READBUF, TRANSMIT. -/
def Claims.opcodeRows : List (BitVec 64 × BitVec 64) :=
  [(0xFF0000FFFFFFFFFF#64, 0x0100000000000000#64), (0xFF0000FFFFFFFFFE#64, 0x0200000000000000#64),
   (0xFF0000FFFFFFFFFF#64, 0x0300000000000000#64), (0xFFFFFFFFFFFFFF00#64, 0x0400000000000000#64),
   (0xFFFFFFFF00FEFFFF#64, 0x0500000000000000#64), (0xFFFFFFFF00FEFFFF#64, 0x0600000000000000#64),
   (0xFFFFFFFF00FEFFFF#64, 0x0700000000000000#64), (0xFF000000FFFFFFFF#64, 0x0800000000000000#64),
   (0xFF000000FFFF0000#64, 0x0900000000000000#64), (0xFFFFFFFF00FEFFFF#64, 0x0A00000000000000#64),
   (0xFFFFFFFF00FEFFFF#64, 0x0B00000000000000#64), (0xFFFFFFFFFFFFFFFF#64, 0x0C00000000000000#64),
   (0xFFFFFFFFFFFFFFFF#64, 0x1000000000000000#64)]

/-- A legal word: it matches a row of the opcode table, and `A = 0` only with `L = 0` (R73, R74, R80). -/
def Claims.WordLegal (w : BitVec 64) : Prop :=
  (∃ row ∈ Claims.opcodeRows, w &&& row.1 = row.2) ∧ (w.getLsbD 16 = false → w.extractLsb' 24 8 = 0#8)

/-- The payload bytes after a word (R75, R79): `k * L * A`. -/
def Claims.payloadBytes (w : BitVec 64) : Nat :=
  (if w.extractLsb' 56 8 = 0x0B#8 then 2
   else if w.extractLsb' 56 8 ∈ [0x05#8, 0x06#8, 0x07#8, 0x0A#8] then 1 else 0) *
    (w.extractLsb' 24 8).toNat * (w.extractLsb' 16 1).toNat

/-- A word of opcode `op` with a bit of `unused` set is illegal, and its payload is consumed (R73, R75). -/
def Claims.IllegalOutside (op : BitVec 8) (unused : BitVec 64) : Prop :=
  ∀ (w : BitVec 64) (pay rest : List Byte), w.extractLsb' 56 8 = op → w &&& unused ≠ 0#64 →
    pay.length = Claims.payloadBytes w → ∃ why, decode (bytesOfWord w ++ pay ++ rest) = .illegal why rest

/-- A response: `(status, data, no output bytes)`. -/
def Claims.answer (status : Status) (data : BitVec 16) : Response := ⟨status, data, []⟩

/-- The bit of a buffer operand that applies to pin `p` (R53); no bit past its end. -/
def Claims.pinOf (b : List Byte) (p : Nat) : Bool := (b.getD (p / 8) 0x00#8).getLsbD (p % 8)

/-- The events of one frame (R182, R184, R187): the latch lowered, for `t = 1..8N` the bit of pin `8N - t` clocked out,
the latch raised. -/
def Claims.frame (s : State) : List Event :=
  [.drive s.cfg.pinLatch false] ++
  (List.range (8 * s.cfg.count)).flatMap (fun k =>
    [.drive s.cfg.pinClk false, .drive s.cfg.pinData (s.buf.readPin (8 * s.cfg.count - (k + 1))),
     .delay s.cfg.tHold, .drive s.cfg.pinClk true]) ++
  [.drive s.cfg.pinLatch true]

/-- The calls of the frame that TRANSMIT makes from a state. -/
def Claims.frameOf (s : State) : List PinCall :=
  frameCalls (s.buf.readBytes 0 s.cfg.count) s.cfg.count

/-- How many of these calls raise a line from the level 0, its level before them being `lv` (R193). -/
def Claims.risingEdges (line : Line) (lv : Option Level) : List PinCall → Nat
  | [] => 0
  | .drive l b :: rest =>
    if l = line then (if b = true ∧ lv = some false then 1 else 0) + Claims.risingEdges line (some b) rest
    else Claims.risingEdges line lv rest
  | .hold :: rest => Claims.risingEdges line lv rest

/-- A one-buffer masked command (R119, R122, R123): with a mask of `N` bytes it answers OK and writes, at every pin,
`bit old selected`; an absent mask and one of another length are refused with their status and change nothing else. -/
def Claims.MaskedCommand (cmd : Option (List Byte) → Instr) (bit : Bool → Bool → Bool) : Prop :=
  (∀ (s : State) (mask : List Byte), mask.length = s.cfg.count →
    ∃ t, exec (cmd (some mask)) s = .next t ∧
      t = { s with buf := t.buf, resp := Claims.answer .ok 0#16 } ∧
      (∀ p, t.buf.readPin p =
        if p < 8 * s.cfg.count then bit (s.buf.readPin p) (Claims.pinOf mask p) else s.buf.readPin p)) ∧
  (∀ s : State, exec (cmd none) s = .next { s with resp := Claims.answer .nullOrMissingBuffer 0#16 }) ∧
  (∀ (s : State) (mask : List Byte), mask.length ≠ s.cfg.count →
    exec (cmd (some mask)) s = .next { s with resp := Claims.answer .lengthMismatch 0#16 })

/-- The words of a one-buffer command (R71, R74, R76): `A = 0, L = 0` and no payload for an absent buffer, `A = 1` and `L`
its length for an attached one. -/
def Claims.BufferWords (op : BitVec 8) (cmd : Option (List Byte) → Instr) : Prop :=
  (∀ rest, decode (bytesOfWord (Fields.toWord ⟨op, 0, 0, 0, 0, 0, 0⟩) ++ rest) = .command (cmd none) rest) ∧
  (∀ (b rest : List Byte), b.length < 256 →
    decode (bytesOfWord (Fields.toWord ⟨op, 0, 0, BitVec.ofNat 8 b.length, 0, 1, 0⟩) ++ b ++ rest) =
      .command (cmd (some b)) rest)

/-! ## The command word -/

/-- Decoding what the encoder writes gives the command back, with every operand at every value, and leaves the bytes
after it (30_encoding.md R71, R73 to R78). -/
def Obligations.DecodeOfEncodeIsTheCommand : Prop :=
  ∀ (i : Instr) (rest : List Byte), i.wellFormed = true → decode (encode i ++ rest) = .command i rest

/-- Each command has one spelling: bytes that decode to a command are its encoding, and the command is well-formed
(30_encoding.md R71, R73 to R78). -/
def Obligations.DecodedBytesAreTheEncoding : Prop :=
  ∀ (bs rest : List Byte) (i : Instr), decode bs = .command i rest → i.wellFormed = true ∧ bs = encode i ++ rest

/-- The worked encodings of 30_encoding.md section 7, one of every family. -/
def Obligations.WorkedEncodingsDecode : Prop :=
  decode (bytesOfWord 0x01000F0000000000#64) = .command (.get 15#16) [] ∧
  decode (bytesOfWord 0x02000F0000000001#64) = .command (.set 15#16 true) [] ∧
  decode (bytesOfWord 0x0300000000000000#64) = .command (.toggle 0#16) [] ∧
  decode (bytesOfWord 0x04000000000000FF#64) = .command (.fill 0xFF#8) [] ∧
  decode (bytesOfWord 0x0700000001010000#64 ++ [0x0F#8]) = .command (.mtoggle (some [0x0F#8])) [] ∧
  decode (bytesOfWord 0x0500000000000000#64) = .command (.mset none) [] ∧
  decode (bytesOfWord 0x0800040800000000#64) = .command (.rdseg 4#16 8#8) [] ∧
  decode (bytesOfWord 0x090004040000000A#64) = .command (.wrseg 4#16 4#8 0b1010#16) [] ∧
  decode (bytesOfWord 0x0A00000002010000#64 ++ [0x12#8, 0x34#8]) = .command (.overwrite (some [0x12#8, 0x34#8])) [] ∧
  decode (bytesOfWord 0x0B00000002010000#64 ++ [0xF0#8, 0x0F#8, 0x33#8, 0xAA#8]) =
    .command (.mstamp (some ([0xF0#8, 0x0F#8], [0x33#8, 0xAA#8]))) [] ∧
  decode (bytesOfWord 0x0C00000000000000#64) = .command .readbuf [] ∧
  decode (bytesOfWord 0x1000000000000000#64) = .command .transmit []

/-- R73, R74, R80, R224: a word with its payload decodes to a command exactly when it matches a row of the opcode table
(no reserved opcode, every unlisted bit 0) and does not have `A = 0` with `L /= 0`; otherwise it is illegal. -/
def Obligations.LegalWordsAreTheOpcodeTable : Prop :=
  ∀ (w : BitVec 64) (pay rest : List Byte), pay.length = Claims.payloadBytes w →
    ((∃ i, decode (bytesOfWord w ++ pay ++ rest) = .command i rest) ↔ Claims.WordLegal w) ∧
    ((∃ why, decode (bytesOfWord w ++ pay ++ rest) = .illegal why rest) ↔ ¬ Claims.WordLegal w)

/-- R75, R77: the length of a command comes from its word alone, 8 bytes and `k * L * A`; all of it is consumed whatever
the outcome, and with less than it there is no outcome. -/
def Obligations.CommandLengthComesFromTheWord : Prop :=
  ∀ (w : BitVec 64) (pay rest : List Byte),
    (pay.length = Claims.payloadBytes w →
      (∃ i, decode (bytesOfWord w ++ pay ++ rest) = .command i rest) ∨
      (∃ why, decode (bytesOfWord w ++ pay ++ rest) = .illegal why rest)) ∧
    (pay.length < Claims.payloadBytes w → decode (bytesOfWord w ++ pay) = .shortPayload)

/-! ## The step -/

/-- A step of a ready block takes the next command off the port, runs it to completion, and delivers its response
(10_state.md R21, 60_exceptions.md R236). -/
def Obligations.StepRunsTheDecodedCommand : Prop :=
  ∀ (s : State) (i : Instr) (rest : List Byte), s.phase = .ready → decode s.port = .command i rest →
    ∃ t, exec i { s with port := rest } = .next t ∧ step s = .next { t with delivered := t.delivered ++ [t.resp] }

/-- A ready block runs a well-formed command whose bytes are next on the port, to completion, in one step, and delivers
exactly one response (R21, R236, R281). -/
def Obligations.EncodedCommandRunsInOneStep : Prop :=
  ∀ (s : State) (i : Instr) (rest : List Byte), s.phase = .ready → i.wellFormed = true → s.port = encode i ++ rest →
    ∃ t, exec i { s with port := rest } = .next t ∧ step s = .next { t with delivered := s.delivered ++ [t.resp] }

/-- R80, R224 (and R16, R75, R228): an illegal word finishes with `IllegalCommand` whatever else is wrong with it; its
payload is consumed, its response delivered, and nothing else changes. No other word is answered so. -/
def Obligations.IllegalWordAnswersIllegalCommand : Prop :=
  ∀ (s : State) (w : BitVec 64) (pay rest : List Byte), s.phase = .ready →
    pay.length = Claims.payloadBytes w → s.port = bytesOfWord w ++ pay ++ rest →
    (¬ Claims.WordLegal w → step s = .next { s with
      port := rest
      resp := Claims.answer .illegalCommand 0#16
      delivered := s.delivered ++ [Claims.answer .illegalCommand 0#16] }) ∧
    (Claims.WordLegal w → ∃ t, step s = .next t ∧ t.resp.status ≠ .illegalCommand)

/-- R275: a host that sends fewer bytes than a command's payload leaves the block waiting, with no step. That fewer than
the 8 bytes of a word leave it waiting too is the model's reading (log entry 8). -/
def Obligations.ShortCommandLeavesTheBlockWaiting : Prop :=
  (∀ s : State, s.phase = .ready → s.port.length < 8 → step s = .fault .awaitingCommand) ∧
  (∀ (s : State) (w : BitVec 64) (pay : List Byte), s.phase = .ready → s.port = bytesOfWord w ++ pay →
    pay.length < Claims.payloadBytes w → step s = .fault .awaitingPayload)

/-- R27: while `PHASE = Unbuilt` no command runs, whatever the port holds: a step is the requested construction (log
entry 4), or no move (log entry 9). -/
def Obligations.UnbuiltBlockOnlyConstructs : Prop :=
  ∀ s : State, s.phase = .unbuilt →
    (s.request = none → step s = .refused .notReady) ∧
    (∀ p, s.request = some p → step s = construct p s)

/-! ## Construction and reset -/

/-- R262, R263 and the table of R34, whose levels, trace length and chain the spec derives from R186, R188, R197 and
R199: a legal construction ends with every piece of state at its value there, whatever the chain held; its response is
not delivered. The model's own: construction is one step (log entry 4), a byte past `N-1` reads as 0x00 (log entry 1),
the port's bytes are kept (log entry 9). The chain clauses rest on general knowledge X2 (R195, log entry 14). -/
def Obligations.ConstructionEstablishesTheResetTable : Prop :=
  ∀ (p : ConstructParams) (s : State), 1 ≤ p.registerCount → p.registerCount ≤ 255 →
    p.pinData ≠ p.pinClk → p.pinData ≠ p.pinLatch → p.pinClk ≠ p.pinLatch →
    (∀ b, p.seed = some b → b.length = p.registerCount) →
    ∃ t, construct p s = .next t ∧
      t.phase = .ready ∧
      t.cfg.count = p.registerCount ∧ t.cfg.pinData = p.pinData ∧ t.cfg.pinClk = p.pinClk ∧
      t.cfg.pinLatch = p.pinLatch ∧ t.cfg.tHold = p.hold.getD 10 ∧
      (∀ i, t.buf.read i = match p.seed with | some b => b.getD i 0x00#8 | none => 0x00#8) ∧
      t.lvLatch = some true ∧ t.lvClk = some true ∧ t.lvData = some (t.buf.readPin 0) ∧
      t.resp = Claims.answer .ok 0#16 ∧
      t.trace = [.configure p.pinData, .configure p.pinClk, .configure p.pinLatch] ++ Claims.frame t ∧
      t.trace.length = 3 + (2 + 32 * p.registerCount) ∧
      t.chain.m = s.chain.m ∧ t.chain.st = t.chain.sh ∧
      (∃ x, t.chain.sh =
        ((x <<< (8 * p.registerCount)) ||| t.buf.number p.registerCount) % 2 ^ (8 * s.chain.m)) ∧
      (s.chain.m = p.registerCount → t.chain.sh = t.buf.number p.registerCount) ∧
      t.delivered = s.delivered ∧ t.port = s.port

/-- R261: the three cases in which construction is refused, and no other. -/
def Obligations.IllegalConstructionIsRefused : Prop :=
  ∀ (p : ConstructParams) (s : State),
    construct p s = .refused .illegalConstruction ↔
      (p.registerCount < 1 ∨ 255 < p.registerCount) ∨
      (p.pinData = p.pinClk ∨ p.pinData = p.pinLatch ∨ p.pinClk = p.pinLatch) ∨
      (∃ b, p.seed = some b ∧ b.length ≠ p.registerCount)

/-- The reset state is what construction as one step (log entry 4) with the model's chosen parameters (log entry 2)
makes of any chain of `M = N` registers, whatever free values it draws (log entry 6). Its chain rests on general
knowledge X2 (R195, log entry 14). -/
def Obligations.ConstructionReachesTheResetState : Prop :=
  ∀ sh st draws : Nat, ∃ t, step { State.unbuilt (some resetParams) ⟨2, sh, st⟩ with draws := draws } = .next t ∧
    t = { State.reset with draws := t.draws }

/-- The values R34 gives for a construction without a seed, at the model's reset state (whose parameters are log entry
2's). -/
def Obligations.ResetStateHasTheTableValues : Prop :=
  State.reset.phase = .ready ∧ (∀ i, State.reset.buf.read i = 0x00#8) ∧
  State.reset.lvLatch = some true ∧ State.reset.lvClk = some true ∧ State.reset.lvData = some false ∧
  State.reset.resp = Claims.answer .ok 0#16 ∧ State.reset.trace.length = 3 + (2 + 32 * State.reset.cfg.count) ∧
  State.reset.cfg.tHold = 10

/-! ## Single-pin commands -/

/-- R100. -/
def Obligations.GetReturnsThePin : Prop :=
  (∀ (s : State) (pin : PinIndex), pin.toNat ≤ s.cfg.maxBit →
    exec (.get pin) s = .next { s with
      resp := Claims.answer .ok (if (s.buf.read (pin.toNat / 8)).getLsbD (pin.toNat % 8) then 1#16 else 0#16) }) ∧
  (∀ (s : State) (pin : PinIndex), s.cfg.maxBit < pin.toNat →
    exec (.get pin) s = .next { s with resp := Claims.answer .pinOutOfRange 0#16 }) ∧
  (∀ (pin : PinIndex) rest, decode (bytesOfWord (Fields.toWord ⟨0x01, pin, 0, 0, 0, 0, 0⟩) ++ rest) =
    .command (.get pin) rest) ∧
  Claims.IllegalOutside 0x01 0x000000FFFFFFFFFF

/-- R103. -/
def Obligations.SetWritesOnePin : Prop :=
  (∀ (s : State) (pin : PinIndex) (bit : Bool), pin.toNat ≤ s.cfg.maxBit →
    ∃ t, exec (.set pin bit) s = .next t ∧ t = { s with buf := t.buf, resp := Claims.answer .ok 0#16 } ∧
      (∀ q, t.buf.readPin q = if q = pin.toNat then bit else s.buf.readPin q) ∧
      (∀ a, a ≠ pin.toNat / 8 → t.buf.read a = s.buf.read a)) ∧
  (∀ (s : State) (pin : PinIndex) (bit : Bool), s.cfg.maxBit < pin.toNat →
    exec (.set pin bit) s = .next { s with resp := Claims.answer .pinOutOfRange 0#16 }) ∧
  (∀ (pin : PinIndex) (bit : Bool) rest,
    decode (bytesOfWord (Fields.toWord ⟨0x02, pin, 0, 0, 0, 0, if bit then 1 else 0⟩) ++ rest) =
      .command (.set pin bit) rest) ∧
  Claims.IllegalOutside 0x02 0x000000FFFFFFFFFE

/-- R106. -/
def Obligations.ToggleInvertsOnePin : Prop :=
  (∀ (s : State) (pin : PinIndex), pin.toNat ≤ s.cfg.maxBit →
    ∃ t, exec (.toggle pin) s = .next t ∧ t = { s with buf := t.buf, resp := Claims.answer .ok 0#16 } ∧
      (∀ q, t.buf.readPin q = if q = pin.toNat then !s.buf.readPin q else s.buf.readPin q) ∧
      (∀ a, a ≠ pin.toNat / 8 → t.buf.read a = s.buf.read a)) ∧
  (∀ (s : State) (pin : PinIndex), s.cfg.maxBit < pin.toNat →
    exec (.toggle pin) s = .next { s with resp := Claims.answer .pinOutOfRange 0#16 }) ∧
  (∀ (pin : PinIndex) rest, decode (bytesOfWord (Fields.toWord ⟨0x03, pin, 0, 0, 0, 0, 0⟩) ++ rest) =
    .command (.toggle pin) rest) ∧
  Claims.IllegalOutside 0x03 0x000000FFFFFFFFFF

/-- R104, which the spec derives from R100 and R103. -/
def Obligations.SetThenGetReturnsTheBit : Prop :=
  ∀ (s : State) (pin : PinIndex) (bit : Bool), pin.toNat ≤ s.cfg.maxBit →
    ∃ t, runCommands [.set pin bit, .get pin] s = .next t ∧
      t.resp = Claims.answer .ok (if bit then 1#16 else 0#16)

/-- R105 (and R101 for GET): a pin command that fails its range check changes no bit of `BUF` and nothing else. -/
def Obligations.FailingPinCommandHasNoSideEffect : Prop :=
  ∀ (s : State) (pin : PinIndex) (bit : Bool), s.cfg.maxBit < pin.toNat →
    ∀ i ∈ [Instr.get pin, .set pin bit, .toggle pin],
      ∃ t, exec i s = .next t ∧ t.resp.status = .pinOutOfRange ∧ t.resp.data = 0#16 ∧
        (∀ p, t.buf.readPin p = s.buf.readPin p) ∧ t = { s with resp := t.resp }

/-! ## Whole-buffer commands -/

/-- R120. -/
def Obligations.FillSetsEveryByte : Prop :=
  (∀ (s : State) (v : Byte),
    ∃ t, exec (.fill v) s = .next t ∧ t = { s with buf := t.buf, resp := Claims.answer .ok 0#16 } ∧
      (∀ i, i < s.cfg.count → t.buf.read i = v) ∧ (∀ i, s.cfg.count ≤ i → t.buf.read i = s.buf.read i)) ∧
  (∀ (v : Byte) rest, decode (bytesOfWord (Fields.toWord ⟨0x04, 0, 0, 0, 0, 0, v.setWidth 16⟩) ++ rest) =
    .command (.fill v) rest) ∧
  Claims.IllegalOutside 0x04 0x00FFFFFFFFFFFF00

/-- R121, which the spec derives from R120 and R100. -/
def Obligations.FillThenGetReturnsTheFill : Prop :=
  ∀ (s : State) (pin : PinIndex), 1 ≤ s.cfg.count → pin.toNat ≤ s.cfg.maxBit →
    (∃ t, runCommands [.fill 0xFF#8, .get pin] s = .next t ∧ t.resp = Claims.answer .ok 1#16) ∧
    (∃ t, runCommands [.fill 0x00#8, .get pin] s = .next t ∧ t.resp = Claims.answer .ok 0#16)

/-- R124. -/
def Obligations.MsetSetsTheSelectedPins : Prop :=
  Claims.MaskedCommand .mset (fun old selected => old || selected) ∧ Claims.BufferWords 0x05 .mset ∧
  Claims.IllegalOutside 0x05 0x00FFFFFF00FEFFFF

/-- R128. -/
def Obligations.MresetClearsTheSelectedPins : Prop :=
  Claims.MaskedCommand .mreset (fun old selected => old && !selected) ∧ Claims.BufferWords 0x06 .mreset ∧
  Claims.IllegalOutside 0x06 0x00FFFFFF00FEFFFF

/-- R132. -/
def Obligations.MtoggleInvertsTheSelectedPins : Prop :=
  Claims.MaskedCommand .mtoggle (fun old selected => if selected then !old else old) ∧
  Claims.BufferWords 0x07 .mtoggle ∧ Claims.IllegalOutside 0x07 0x00FFFFFF00FEFFFF

/-- R136. -/
def Obligations.OverwriteReplacesTheBuffer : Prop :=
  (∀ (s : State) (new : List Byte), new.length = s.cfg.count →
    ∃ t, exec (.overwrite (some new)) s = .next t ∧ t = { s with buf := t.buf, resp := Claims.answer .ok 0#16 } ∧
      (∀ i, i < s.cfg.count → t.buf.read i = new.getD i 0x00#8) ∧
      (∀ i, s.cfg.count ≤ i → t.buf.read i = s.buf.read i)) ∧
  (∀ s : State, exec (.overwrite none) s = .next { s with resp := Claims.answer .nullOrMissingBuffer 0#16 }) ∧
  (∀ (s : State) (new : List Byte), new.length ≠ s.cfg.count →
    exec (.overwrite (some new)) s = .next { s with resp := Claims.answer .lengthMismatch 0#16 }) ∧
  Claims.BufferWords 0x0A .overwrite ∧ Claims.IllegalOutside 0x0A 0x00FFFFFF00FEFFFF

/-- R140: at every selected pin the bit of the value buffer by the pin's own index, every other pin as it was; the same
byte by byte. -/
def Obligations.MstampCopiesTheSelectedPins : Prop :=
  (∀ (s : State) (mask val : List Byte), mask.length = s.cfg.count → val.length = s.cfg.count →
    ∃ t, exec (.mstamp (some (mask, val))) s = .next t ∧
      t = { s with buf := t.buf, resp := Claims.answer .ok 0#16 } ∧
      (∀ p, t.buf.readPin p = if Claims.pinOf mask p then Claims.pinOf val p else s.buf.readPin p) ∧
      (∀ i, i < s.cfg.count → t.buf.read i =
        (s.buf.read i &&& ~~~(mask.getD i 0x00#8)) ||| (val.getD i 0x00#8 &&& mask.getD i 0x00#8)) ∧
      (∀ i, s.cfg.count ≤ i → t.buf.read i = s.buf.read i)) ∧
  (∀ s : State, exec (.mstamp none) s = .next { s with resp := Claims.answer .nullOrMissingBuffer 0#16 }) ∧
  (∀ (s : State) (mask val : List Byte), mask.length = val.length → mask.length ≠ s.cfg.count →
    exec (.mstamp (some (mask, val))) s = .next { s with resp := Claims.answer .lengthMismatch 0#16 }) ∧
  (∀ rest, decode (bytesOfWord (Fields.toWord ⟨0x0B, 0, 0, 0, 0, 0, 0⟩) ++ rest) = .command (.mstamp none) rest) ∧
  (∀ mask val rest : List Byte, mask.length < 256 → val.length = mask.length →
    decode (bytesOfWord (Fields.toWord ⟨0x0B, 0, 0, BitVec.ofNat 8 mask.length, 0, 1, 0⟩) ++ (mask ++ val) ++ rest) =
      .command (.mstamp (some (mask, val))) rest) ∧
  Claims.IllegalOutside 0x0B 0x00FFFFFF00FEFFFF

/-- R144. -/
def Obligations.ReadbufReturnsTheBuffer : Prop :=
  (∀ s : State, ∃ t, exec .readbuf s = .next t ∧ t = { s with resp := t.resp } ∧ t.resp.status = .ok ∧
    t.resp.data = 0#16 ∧ t.resp.out.length = s.cfg.count ∧
    (∀ i, i < s.cfg.count → t.resp.out[i]? = some (s.buf.read i))) ∧
  (∀ rest, decode (bytesOfWord (Fields.toWord ⟨0x0C, 0, 0, 0, 0, 0, 0⟩) ++ rest) = .command .readbuf rest) ∧
  Claims.IllegalOutside 0x0C 0x00FFFFFFFFFFFFFF

/-- R119, R222, R223: the two payload errors of the five buffer commands; `BUF` and everything else but the response
stay. -/
def Obligations.PayloadErrorsLeaveTheBuffer : Prop :=
  (∀ s : State, ∀ i ∈ [Instr.mset none, .mreset none, .mtoggle none, .overwrite none, .mstamp none],
    exec i s = .next { s with resp := Claims.answer .nullOrMissingBuffer 0#16 }) ∧
  (∀ (s : State) (b c : List Byte), b.length ≠ s.cfg.count → c.length = b.length →
    ∀ i ∈ [Instr.mset (some b), .mreset (some b), .mtoggle (some b), .overwrite (some b), .mstamp (some (b, c))],
      exec i s = .next { s with resp := Claims.answer .lengthMismatch 0#16 })

/-- R129, which the spec derives from R124 and R128: selected pins end at 0, every other pin as it was. -/
def Obligations.MsetThenMresetClearsTheSelected : Prop :=
  ∀ (s : State) (m : List Byte), m.length = s.cfg.count →
    ∃ t, runCommands [.mset (some m), .mreset (some m)] s = .next t ∧
      ∀ p, t.buf.readPin p = if Claims.pinOf m p then false else s.buf.readPin p

/-- R148, which the spec derives from R124, R128, R132 and R140: the three equalities of whole buffers. -/
def Obligations.MaskLawsOfWholeBuffers : Prop :=
  ∀ (s : State) (m v : List Byte), s.buf.wf = true → m.length = s.cfg.count → v.length = s.cfg.count →
    (∃ t u, runCommands [.mset (some m), .mtoggle (some m)] s = .next t ∧
      runCommands [.mreset (some m)] s = .next u ∧ t.buf = u.buf) ∧
    (∃ t u, runCommands [.mreset (some m), .mtoggle (some m)] s = .next t ∧
      runCommands [.mset (some m)] s = .next u ∧ t.buf = u.buf) ∧
    (∃ t u, runCommands [.mstamp (some (m, v))] s = .next t ∧
      runCommands [.mreset (some m), .mset (some (List.zipWith (fun x y => x &&& y) v m))] s = .next u ∧
      t.buf = u.buf)

/-- R59, which the spec derives from the commands' rules: which commands are idempotent on `BUF`, which are involutions,
and what a second TRANSMIT does (to the chain, by general knowledge X2, R195, log entry 14). -/
def Obligations.RepeatingACommand : Prop :=
  (∀ (s t u : State) (pin : PinIndex) (bit : Bool) (byte : Byte) (m : Option (List Byte))
    (mv : Option (List Byte × List Byte)) (count : BitVec 8) (value : BitVec 16), s.buf.wf = true →
    ∀ i ∈ [Instr.set pin bit, .fill byte, .mset m, .mreset m, .mstamp mv, .wrseg pin count value, .overwrite m],
      exec i s = .next t → exec i t = .next u → u.buf = t.buf) ∧
  (∀ (s t u : State) (pin : PinIndex) (m : Option (List Byte)), s.buf.wf = true →
    ∀ i ∈ [Instr.toggle pin, .mtoggle m], exec i s = .next t → exec i t = .next u → u.buf = s.buf) ∧
  (∀ s t u : State, exec .transmit s = .next t → exec .transmit t = .next u →
    u.lvData = t.lvData ∧ u.lvClk = t.lvClk ∧ u.lvLatch = t.lvLatch ∧
    (s.chain.m = s.cfg.count → u.chain = t.chain) ∧
    ∃ e, t.trace = s.trace ++ e ∧ u.trace = t.trace ++ e)

/-! ## Segment commands -/

/-- R160, R161: bit `j` of the value is pin `start + j` for `j < count`, and the bits from `count` up are 0. -/
def Obligations.RdsegReturnsTheSegment : Prop :=
  (∀ (s : State) (start : PinIndex) (count : BitVec 8), 1 ≤ count.toNat → count.toNat ≤ 16 →
    start.toNat + count.toNat - 1 ≤ s.cfg.maxBit →
    ∃ t, exec (.rdseg start count) s = .next t ∧ t = { s with resp := Claims.answer .ok t.resp.data } ∧
      (∀ j, t.resp.data.getLsbD j = (decide (j < count.toNat) && s.buf.readPin (start.toNat + j)))) ∧
  (∀ (s : State) (start : PinIndex) (count : BitVec 8),
    (count.toNat < 1 ∨ 16 < count.toNat ∨ s.cfg.maxBit < start.toNat + count.toNat - 1) →
    exec (.rdseg start count) s = .next { s with resp := Claims.answer .pinOutOfRange 0#16 }) ∧
  (∀ (start : PinIndex) (count : BitVec 8) rest,
    decode (bytesOfWord (Fields.toWord ⟨0x08, start, count, 0, 0, 0, 0⟩) ++ rest) = .command (.rdseg start count) rest) ∧
  Claims.IllegalOutside 0x08 0x00000000FFFFFFFF

/-- R164, R165: pin `start + j` takes bit `j` of the value for `j < count`; the value's higher bits change nothing, nor
does any pin outside the segment. -/
def Obligations.WrsegWritesTheSegment : Prop :=
  (∀ (s : State) (start : PinIndex) (count : BitVec 8) (value : BitVec 16), 1 ≤ count.toNat → count.toNat ≤ 16 →
    start.toNat + count.toNat - 1 ≤ s.cfg.maxBit →
    ∃ t, exec (.wrseg start count value) s = .next t ∧
      t = { s with buf := t.buf, resp := Claims.answer .ok 0#16 } ∧
      (∀ p, t.buf.readPin p =
        if start.toNat ≤ p ∧ p < start.toNat + count.toNat then value.getLsbD (p - start.toNat)
        else s.buf.readPin p)) ∧
  (∀ (s : State) (start : PinIndex) (count : BitVec 8) (value : BitVec 16),
    (count.toNat < 1 ∨ 16 < count.toNat ∨ s.cfg.maxBit < start.toNat + count.toNat - 1) →
    exec (.wrseg start count value) s = .next { s with resp := Claims.answer .pinOutOfRange 0#16 }) ∧
  (∀ (start : PinIndex) (count : BitVec 8) (value : BitVec 16) rest,
    decode (bytesOfWord (Fields.toWord ⟨0x09, start, count, 0, 0, 0, value⟩) ++ rest) =
      .command (.wrseg start count value) rest) ∧
  Claims.IllegalOutside 0x09 0x00000000FFFF0000

/-- R166, which the spec derives from R160, R164 and R165. -/
def Obligations.WrsegThenRdsegReturnsTheLowBits : Prop :=
  ∀ (s : State) (start : PinIndex) (count : BitVec 8) (value : BitVec 16), 1 ≤ count.toNat → count.toNat ≤ 16 →
    start.toNat + count.toNat - 1 ≤ s.cfg.maxBit →
    ∃ t, runCommands [.wrseg start count value, .rdseg start count] s = .next t ∧
      t.resp = Claims.answer .ok (value &&& BitVec.ofNat 16 (2 ^ count.toNat - 1))

/-! ## The transmitter -/

/-- R184: TRANSMIT answers OK, appends exactly the frame of R182 and R187, and leaves the levels it last drove; `BUF` and
everything but the lines, the chain, the trace and the response stay as they were. -/
def Obligations.TransmitSendsTheFrame : Prop :=
  (∀ s : State, ∃ t, exec .transmit s = .next t ∧ t.trace = s.trace ++ Claims.frame s ∧
    t = { s with
      lvData := t.lvData
      lvClk := t.lvClk
      lvLatch := t.lvLatch
      chain := t.chain
      trace := t.trace
      resp := Claims.answer .ok 0#16 } ∧
    t.lvLatch = some true ∧
    (1 ≤ s.cfg.count → t.lvClk = some true ∧ t.lvData = some ((s.buf.read 0).getLsbD 0))) ∧
  (∀ rest, decode (bytesOfWord (Fields.toWord ⟨0x10, 0, 0, 0, 0, 0, 0⟩) ++ rest) = .command .transmit rest) ∧
  Claims.IllegalOutside 0x10 0x00FFFFFFFFFFFFFF

/-- R187, R188 (which the spec derives from R182 and R184): the events of a frame by their index, the byte and bit each
data bit comes from, and the rising edges of the two clocks. -/
def Obligations.FrameEventsByIndex : Prop :=
  ∀ s : State, ∃ t e, exec .transmit s = .next t ∧ t.trace = s.trace ++ e ∧ e.length = 2 + 32 * s.cfg.count ∧
    e[0]? = some (.drive s.cfg.pinLatch false) ∧
    (∀ k, 1 ≤ k → k ≤ 8 * s.cfg.count →
      e[4 * k - 3]? = some (.drive s.cfg.pinClk false) ∧
      e[4 * k - 2]? = some (.drive s.cfg.pinData (s.buf.readPin (8 * s.cfg.count - k))) ∧
      e[4 * k - 1]? = some (.delay s.cfg.tHold) ∧
      e[4 * k]? = some (.drive s.cfg.pinClk true) ∧
      s.buf.readPin (8 * s.cfg.count - k) = (s.buf.read (s.cfg.count - 1 - (k - 1) / 8)).getLsbD (7 - (k - 1) % 8)) ∧
    e[32 * s.cfg.count + 1]? = some (.drive s.cfg.pinLatch true) ∧
    e = (Claims.frameOf s).map (PinCall.event s.cfg) ∧
    Claims.risingEdges .clk s.lvClk (Claims.frameOf s) = 8 * s.cfg.count ∧
    Claims.risingEdges .latch s.lvLatch (Claims.frameOf s) = 1

/-- R186, which the spec derives from R184: the idle levels a frame leaves, whatever the levels were before it. -/
def Obligations.TransmitLeavesTheIdleLevels : Prop :=
  ∀ s : State, 1 ≤ s.cfg.count → ∃ t, exec .transmit s = .next t ∧
    t.lvLatch = some true ∧ t.lvClk = some true ∧ t.lvData = some ((s.buf.read 0).getLsbD 0)

/-- R190, which the spec derives from R184. -/
def Obligations.TransmitKeepsBufferAndConfiguration : Prop :=
  ∀ s : State, ∃ t, exec .transmit s = .next t ∧ t.buf = s.buf ∧ t.cfg = s.cfg ∧ t.phase = s.phase

/-- R185, which the spec derives from R184: within a frame the data line changes only while the shift clock is low, at
least one `Delay` before the rising edge; every `Drive(PIN_CLK, 1)` is a rising edge; the latch is low from the first
call to the last, which raises it. -/
def Obligations.DataChangesOnlyWhileTheClockIsLow : Prop :=
  ∀ (s : State) (k : Nat),
    (∀ b, (Claims.frameOf s)[k]? = some (.drive .data b) →
      (s.runCalls ((Claims.frameOf s).take k)).lvClk = some false) ∧
    ((Claims.frameOf s)[k]? = some (.drive .clk true) →
      (s.runCalls ((Claims.frameOf s).take k)).lvClk = some false ∧
      ∃ j b, k = j + 2 ∧ (Claims.frameOf s)[j]? = some (.drive .data b) ∧ (Claims.frameOf s)[j + 1]? = some .hold) ∧
    (0 < k → k < (Claims.frameOf s).length → (s.runCalls ((Claims.frameOf s).take k)).lvLatch = some false) ∧
    (k + 1 = (Claims.frameOf s).length → (Claims.frameOf s)[k]? = some (.drive .latch true))

/-- R197, which the spec derives from R187, R188, R192 and R194: what one complete frame leaves on a chain of any
length, for any shift stage before it. A falling clock edge must shift nothing: general knowledge X2 (R195, log entry
14). -/
def Obligations.FrameShiftsTheBufferIntoTheChain : Prop :=
  ∀ s : State, 1 ≤ s.cfg.count → ∃ t, exec .transmit s = .next t ∧ t.chain.m = s.chain.m ∧
    t.chain.sh = ((s.chain.sh <<< (8 * s.cfg.count)) ||| s.buf.number s.cfg.count) % 2 ^ (8 * s.chain.m) ∧
    t.chain.st = t.chain.sh

/-- R198, which the spec derives from R197: register by register, the outputs numbered by R196 (general knowledge X1)
and falling edges doing nothing (X2, R195; log entry 14). -/
def Obligations.RegistersAfterAFrame : Prop :=
  ∀ s : State, 1 ≤ s.cfg.count → ∃ t, exec .transmit s = .next t ∧
    (∀ i k, k < 8 → i < min s.chain.m s.cfg.count → t.chain.output i k = (s.buf.read i).getLsbD k) ∧
    (∀ i k, k < 8 → s.cfg.count ≤ i → i < s.chain.m →
      t.chain.output i k = s.chain.sh.testBit (8 * (i - s.cfg.count) + k)) ∧
    (∀ i k, s.chain.m ≤ i → t.chain.output i k = false)

/-- R199, which the spec derives from R197: with `M = N`, after every complete TRANSMIT the chain shows `BUF`, whatever
it held before. Falling edges do nothing by general knowledge X2 (R195), and the last clause numbers the outputs by
R196, X1 (log entry 14). -/
def Obligations.ChainShowsTheBufferAfterTransmit : Prop :=
  ∀ s : State, 1 ≤ s.cfg.count → s.chain.m = s.cfg.count → ∃ t, exec .transmit s = .next t ∧
    t.chain.st = s.buf.number s.cfg.count ∧ t.chain.sh = s.buf.number s.cfg.count ∧
    (∀ i k, i < s.cfg.count → k < 8 → t.chain.output i k = (s.buf.read i).getLsbD k)

/-- R200, which the spec derives from R185, R191, R194 and R195: after any number of a frame's calls but all of them,
the outputs are those of the previous frame; the last call gives the new ones. Lowering the latch copies nothing:
general knowledge X2 (R191, R195, log entry 14). -/
def Obligations.OutputsHoldUntilTheLatchEdge : Prop :=
  ∀ s : State,
    (∀ k, k < (Claims.frameOf s).length → (s.runCalls ((Claims.frameOf s).take k)).chain.st = s.chain.st) ∧
    (∃ t, exec .transmit s = .next t ∧ t.chain = (s.runCalls (Claims.frameOf s)).chain ∧
      t.chain.st = (s.runCalls ((Claims.frameOf s).take ((Claims.frameOf s).length - 1))).chain.sh)

/-- R192, R194: a shift-clock rising edge shifts the chain by one position and takes in the data line; a latch rising edge
copies the shift stage to the outputs. -/
def Obligations.RisingEdgesShiftAndLatchTheChain : Prop :=
  ∀ s : State,
    (∀ b, s.lvClk = some false → s.lvData = some b →
      (s.drive .clk true).chain = { s.chain with sh := ((s.chain.sh <<< 1) ||| b.toNat) % 2 ^ (8 * s.chain.m) }) ∧
    (s.lvLatch = some false → (s.drive .latch true).chain = { s.chain with st := s.chain.sh })

/-- R191, R193, R195: what is no edge leaves the chain (falling edges by general knowledge, X2, log entry 14); raising a
clock that has not been driven yet may or may not be an edge (R193, log entry 6). -/
def Obligations.OnlyRisingEdgesChangeTheChain : Prop :=
  ∀ s : State,
    (s.lvClk = some true → (s.drive .clk true).chain = s.chain) ∧
    (s.lvClk = none → (s.drive .clk true).chain = s.chain ∨
      ∃ b : Bool, (s.drive .clk true).chain =
        { s.chain with sh := ((s.chain.sh <<< 1) ||| b.toNat) % 2 ^ (8 * s.chain.m) }) ∧
    (s.lvLatch = some true → (s.drive .latch true).chain = s.chain) ∧
    (s.lvLatch = none → (s.drive .latch true).chain = s.chain ∨
      (s.drive .latch true).chain = { s.chain with st := s.chain.sh }) ∧
    (s.drive .clk false).chain = s.chain ∧ (s.drive .latch false).chain = s.chain ∧
    (∀ b, (s.drive .data b).chain = s.chain) ∧ s.delay.chain = s.chain

/-- 70_reset_and_hazards.md R280: the delays of one TRANSMIT add up to `8*N*T_HOLD`. -/
def Obligations.TransmitDelaysAddUp : Prop :=
  ∀ s : State, ∃ t e, exec .transmit s = .next t ∧ t.trace = s.trace ++ e ∧
    delayTotal e = 8 * s.cfg.count * s.cfg.tHold

/-- R52, which the spec derives from R23: in the number that a buffer spells, pin `p` carries weight `2^p`. -/
def Obligations.PinsCarryTheirWeightInTheBufferNumber : Prop :=
  ∀ (m : Memory) (n p : Nat), (m.number n).testBit p = (decide (p < 8 * n) && m.readPin p)

/-! ## Statements over all commands and all steps -/

/-- R227, R230: no command stops the machine. -/
def Obligations.EveryCommandAnswers : Prop :=
  ∀ (i : Instr) (s : State), ∃ t, exec i s = .next t

/-- R226, R16: a command that does not finish with OK changes nothing but its response, whose data is 0; a step with
such a response takes the command's bytes and delivers the response, and changes nothing else. -/
def Obligations.FailureHasNoOtherEffect : Prop :=
  (∀ (i : Instr) (s t : State), exec i s = .next t → t.resp.status ≠ .ok →
    t = { s with resp := Claims.answer t.resp.status 0#16 }) ∧
  (∀ s t : State, s.phase = .ready → step s = .next t → t.resp.status ≠ .ok →
    t = { s with
      port := t.port
      resp := Claims.answer t.resp.status 0#16
      delivered := s.delivered ++ [Claims.answer t.resp.status 0#16] })

/-- R221 to R224: which command can finish with which status. -/
def Obligations.StatusesEachCommandRaises : Prop :=
  ∀ (i : Instr) (s t : State), exec i s = .next t →
    (t.resp.status = .pinOutOfRange → (∃ p, i = .get p) ∨ (∃ p b, i = .set p b) ∨ (∃ p, i = .toggle p) ∨
      (∃ p c, i = .rdseg p c) ∨ (∃ p c v, i = .wrseg p c v)) ∧
    (t.resp.status = .nullOrMissingBuffer →
      i ∈ [Instr.mset none, .mreset none, .mtoggle none, .overwrite none, .mstamp none]) ∧
    (t.resp.status = .lengthMismatch → ∃ b c,
      i ∈ [Instr.mset (some b), .mreset (some b), .mtoggle (some b), .overwrite (some b), .mstamp (some (b, c))] ∧
      (b.length ≠ s.cfg.count ∨ (i = .mstamp (some (b, c)) ∧ c.length ≠ s.cfg.count))) ∧
    t.resp.status ≠ .illegalCommand

/-- R26, R58, R63: every command but TRANSMIT changes `BUF` and the response at most; the lines, the trace and the chain's
outputs stay. The commands that R56 says write nothing in `BUF` leave it. -/
def Obligations.OnlyTransmitReachesTheLines : Prop :=
  ∀ (i : Instr) (s t : State), exec i s = .next t →
    (i ≠ .transmit → t = { s with buf := t.buf, resp := t.resp }) ∧
    ((∃ p, i = .get p) ∨ (∃ p c, i = .rdseg p c) ∨ i = .readbuf ∨ i = .transmit → t.buf = s.buf)

/-- R11, R25, R27: no step of a ready block writes a field of `CFG`, leaves `Ready`, or rewires the chain. -/
def Obligations.ConfigurationNeverChanges : Prop :=
  ∀ s t : State, s.phase = .ready → step s = .next t →
    t.cfg = s.cfg ∧ t.phase = .ready ∧ t.chain.m = s.chain.m

/-- R30: `TRACE` is append-only. -/
def Obligations.TraceIsAppendOnly : Prop :=
  ∀ s t : State, s.phase = .ready → step s = .next t → ∃ e, t.trace = s.trace ++ e

/-- R236: every step of a ready block delivers one response, that of the command it ran. -/
def Obligations.OneResponsePerCommand : Prop :=
  ∀ s t : State, s.phase = .ready → step s = .next t → t.delivered = s.delivered ++ [t.resp]

/-- The invariant of the machine (R22, R25, R26, R28, R31, R50, R81, R186, R235), kept by every step, also the step that
constructs the block. -/
def Obligations.StepKeepsTheInvariant : Prop :=
  ∀ s t : State, s.Inv → step s = .next t → t.Inv

/-- The invariant holds at reset. -/
def Obligations.ResetMeetsTheInvariant : Prop := State.reset.Inv

/-- R81, R220: the response word and the status codes. -/
def Obligations.ResponseWordLayout : Prop :=
  (∀ r : Response, r.word.extractLsb' 24 8 = r.status.code ∧ r.word.extractLsb' 16 8 = 0#8 ∧
    r.word.extractLsb' 0 16 = r.data) ∧
  Status.ok.code = 0x00 ∧ Status.pinOutOfRange.code = 0x01 ∧ Status.nullOrMissingBuffer.code = 0x02 ∧
  Status.lengthMismatch.code = 0x03 ∧ Status.illegalCommand.code = 0x04 ∧
  (∀ e : Status, e.code.toNat < 5)

/-! ## The assembler -/

/-- R83: the commands a pseudo-instruction stands for; TOGGLEALL inverts every pin of the block it is written for. -/
def Obligations.PseudoInstructionsExpand : Prop :=
  (∀ n, AsmPseudo.expand n .setall = [.fill 0xFF] ∧ AsmPseudo.expand n .clrall = [.fill 0x00] ∧
    AsmPseudo.expand n .toggleall = [.mtoggle (some (List.replicate n 0xFF))] ∧
    (∀ p b, AsmPseudo.expand n (.write p b) = [.set p b, .transmit]) ∧
    (∀ m, AsmPseudo.expand n (.stamp m) = [.overwrite m, .transmit]) ∧
    (∀ p c v, AsmPseudo.expand n (.wrport p c v) = [.wrseg p c v, .transmit]) ∧
    (∀ p c, AsmPseudo.expand n (.rdport p c) = [.rdseg p c])) ∧
  (∀ s : State, ∃ is t, assembleAll (AsmPseudo.expand s.cfg.count .toggleall) = some is ∧
    runCommands is s = .next t ∧ t.resp.status = .ok ∧
    ∀ p, p < 8 * s.cfg.count → t.buf.readPin p = !s.buf.readPin p)

/-- R84: the assembler rejects exactly the numbers that do not fit their field, and assembles the others; a pin or a
count that fits its field but is out of range for the block is answered with `PinOutOfRange`. What assembles, buffers
included, is well-formed. Rejecting a WRSEG value over 65535 and a buffer over 255 bytes is the model's reading of R82
and R84 (DEDUCED, log entry 11). -/
def Obligations.AssemblerRejectsWhatDoesNotFit : Prop :=
  (∀ p, (AsmCommand.get p).assemble = if p < 65536 then some (.get (BitVec.ofNat 16 p)) else none) ∧
  (∀ p, (AsmCommand.toggle p).assemble = if p < 65536 then some (.toggle (BitVec.ofNat 16 p)) else none) ∧
  (∀ p b, (AsmCommand.set p b).assemble =
    if p < 65536 ∧ b < 2 then some (.set (BitVec.ofNat 16 p) (decide (b = 1))) else none) ∧
  (∀ v, (AsmCommand.fill v).assemble = if v < 256 then some (.fill (BitVec.ofNat 8 v)) else none) ∧
  (∀ p c, (AsmCommand.rdseg p c).assemble =
    if p < 65536 ∧ c < 256 then some (.rdseg (BitVec.ofNat 16 p) (BitVec.ofNat 8 c)) else none) ∧
  (∀ p c v, (AsmCommand.wrseg p c v).assemble =
    if p < 65536 ∧ c < 256 ∧ v < 65536
    then some (.wrseg (BitVec.ofNat 16 p) (BitVec.ofNat 8 c) (BitVec.ofNat 16 v)) else none) ∧
  (∀ (c : AsmCommand) (i : Instr), c.assemble = some i → i.wellFormed = true) ∧
  (∀ (s : State) (p : Nat), p < 65536 → s.cfg.maxBit < p → ∃ i t, (AsmCommand.get p).assemble = some i ∧
    exec i s = .next t ∧ t.resp = Claims.answer .pinOutOfRange 0#16) ∧
  (∀ (s : State) (p : Nat), p < 65536 → ∃ i t, (AsmCommand.rdseg p 0).assemble = some i ∧
    exec i s = .next t ∧ t.resp = Claims.answer .pinOutOfRange 0#16)
end

