-- ==== Sys2Proof/Laws/Decode.lean ====
section
/-! SUPPORT. The laws of the command word: fields and words, bytes and words, the opcode map, and what decoding a word
followed by bytes is. -/

namespace Sys2Proof

/-! ## Fields, words and bytes -/

theorem Fields.ofWord_toWord (f : Fields) : Fields.ofWord f.toWord = f := by
  obtain ⟨op, p, c, l, rsv, a, v⟩ := f
  simp only [Fields.ofWord, Fields.toWord, Fields.mk.injEq]
  refine ⟨?_, ?_, ?_, ?_, ?_, ?_, ?_⟩ <;>
    (apply BitVec.eq_of_getLsbD_eq; intro i hi; simp [hi]; grind)

theorem Fields.toWord_ofWord (w : BitVec 64) : (Fields.ofWord w).toWord = w := by
  apply BitVec.eq_of_getLsbD_eq
  intro i hi
  simp [Fields.ofWord, Fields.toWord]
  grind

theorem wordOfBytes_bytesOfWord (w : BitVec 64) :
    wordOfBytes (w.extractLsb' 56 8) (w.extractLsb' 48 8) (w.extractLsb' 40 8) (w.extractLsb' 32 8)
      (w.extractLsb' 24 8) (w.extractLsb' 16 8) (w.extractLsb' 8 8) (w.extractLsb' 0 8) = w := by
  apply BitVec.eq_of_getLsbD_eq
  intro i hi
  simp [wordOfBytes]
  grind

theorem bytesOfWord_wordOfBytes (b7 b6 b5 b4 b3 b2 b1 b0 : Byte) :
    bytesOfWord (wordOfBytes b7 b6 b5 b4 b3 b2 b1 b0) = [b7, b6, b5, b4, b3, b2, b1, b0] := by
  simp only [bytesOfWord, wordOfBytes, List.cons.injEq, and_true]
  refine ⟨?_, ?_, ?_, ?_, ?_, ?_, ?_, ?_⟩ <;>
    (apply BitVec.eq_of_getLsbD_eq; intro i hi; simp [hi]; grind)

@[simp] theorem length_bytesOfWord (w : BitVec 64) : (bytesOfWord w).length = 8 := rfl

/-! ## The opcode map -/

theorem Opcode.ofCode_code (o : Opcode) : Opcode.ofCode o.code = some o := by
  cases o <;> rfl

theorem Opcode.code_of_ofCode {b : BitVec 8} {o : Opcode} (h : Opcode.ofCode b = some o) : b = o.code := by
  apply BitVec.eq_of_toNat_eq
  unfold Opcode.ofCode at h
  split at h <;> first | (cases h; assumption) | cases h

/-! ## Decoding -/

/-- What the front of the stream holds when it starts with a word. -/
theorem decode_bytesOfWord (w : BitVec 64) (rest : List Byte) :
    decode (bytesOfWord w ++ rest) = decodeAfterWord (Fields.ofWord w) rest := by
  conv_rhs => rw [← wordOfBytes_bytesOfWord w]
  rfl

/-- Every stream is short of a word, or a word followed by bytes. -/
theorem decode_cases (bs : List Byte) :
    (decode bs = .shortWord ∧ bs.length < 8) ∨
    ∃ w rest, bs = bytesOfWord w ++ rest ∧ decode bs = decodeAfterWord (Fields.ofWord w) rest := by
  match bs with
  | b7 :: b6 :: b5 :: b4 :: b3 :: b2 :: b1 :: b0 :: rest =>
    exact .inr ⟨wordOfBytes b7 b6 b5 b4 b3 b2 b1 b0, rest, by rw [bytesOfWord_wordOfBytes]; rfl, rfl⟩
  | [] | [_] | [_, _] | [_, _, _] | [_, _, _, _] | [_, _, _, _, _] | [_, _, _, _, _, _] | [_, _, _, _, _, _, _] =>
    exact .inl ⟨rfl, by simp⟩

/-- A word with its complete payload: the decode checks decide, and the bytes after the payload are left (R75). -/
theorem decodeAfterWord_append (f : Fields) (pay rest : List Byte) (h : pay.length = payloadLength f) :
    decodeAfterWord f (pay ++ rest) =
      match decodeFields f pay with
      | .ok i => .command i rest
      | .error why => .illegal why rest := by
  have take : (pay ++ rest).take (payloadLength f) = pay := by rw [← h, List.take_left]
  have drop : (pay ++ rest).drop (payloadLength f) = rest := by rw [← h, List.drop_left]
  have enough : ¬ (pay ++ rest).length < payloadLength f := by simp [h]
  cases hd : decodeFields f pay <;> simp only [decodeAfterWord, if_neg enough, take, drop, hd]

/-- A word whose payload is not complete (R275). -/
theorem decodeAfterWord_short (f : Fields) (rest : List Byte) (h : rest.length < payloadLength f) :
    decodeAfterWord f rest = .shortPayload := by
  unfold decodeAfterWord
  rw [if_pos h]

end Sys2Proof
end

