-- ==== Sys2Proof/Laws/Memory.lean ====
section
/-! SUPPORT. The laws of `BUF`: reading after writing, what is left alone, the canonical form, and the pin view. -/

namespace Sys2Proof.Machine

/-! ## One byte -/

theorem Memory.read_erase (m : Memory) (a b : Nat) :
    (m.erase a).read b = if b = a then Memory.unlisted else m.read b := by
  induction m with
  | nil => simp [Memory.erase, Memory.read]
  | cons e rest ih =>
    obtain ⟨c, w⟩ := e
    simp only [Memory.erase, Memory.read]
    grind [Memory.read]

theorem Memory.read_insert_erase (m : Memory) (a b : Nat) (v : Byte) :
    ((m.erase a).insert a v).read b = if b = a then v else m.read b := by
  induction m with
  | nil => simp only [Memory.erase, Memory.insert, Memory.read]; grind
  | cons e rest ih =>
    obtain ⟨c, w⟩ := e
    have he := Memory.read_erase rest a b
    simp only [Memory.erase, Memory.read]
    grind [Memory.read, Memory.insert]

/-- The one law of a write: the byte written, and every other byte as before. -/
theorem Memory.read_write (m : Memory) (a b : Nat) (v : Byte) :
    (m.write a v).read b = if b = a then v else m.read b := by
  unfold Memory.write
  split
  · rename_i h; rw [Memory.read_erase, h]
  · exact Memory.read_insert_erase m a b v

@[simp] theorem Memory.read_write_same (m : Memory) (a : Nat) (v : Byte) : (m.write a v).read a = v := by
  simp [Memory.read_write]

theorem Memory.read_write_other (m : Memory) {a b : Nat} (v : Byte) (h : b ≠ a) :
    (m.write a v).read b = m.read b := by
  simp [Memory.read_write, h]

/-! ## The canonical form -/

theorem Memory.wfFrom_mono {m : Memory} {low high : Nat} (h : Memory.wfFrom high m = true) (hle : low ≤ high) :
    Memory.wfFrom low m = true := by
  cases m with
  | nil => rfl
  | cons e rest =>
    obtain ⟨a, v⟩ := e
    simp only [Memory.wfFrom, Bool.and_eq_true, decide_eq_true_eq] at h ⊢
    exact ⟨⟨by omega, h.1.2⟩, h.2⟩

theorem Memory.wfFrom_erase {m : Memory} {low : Nat} (a : Nat) (h : Memory.wfFrom low m = true) :
    Memory.wfFrom low (m.erase a) = true := by
  induction m generalizing low with
  | nil => rfl
  | cons e rest ih =>
    obtain ⟨b, v⟩ := e
    simp only [Memory.wfFrom, Bool.and_eq_true, decide_eq_true_eq] at h
    simp only [Memory.erase]
    split
    · exact Memory.wfFrom_mono (ih h.2) (by omega)
    · simp only [Memory.wfFrom, Bool.and_eq_true, decide_eq_true_eq]
      exact ⟨h.1, ih h.2⟩

theorem Memory.wfFrom_insert_erase {m : Memory} {low a : Nat} {v : Byte} (h : Memory.wfFrom low m = true)
    (ha : low ≤ a) (hv : v ≠ Memory.unlisted) : Memory.wfFrom low ((m.erase a).insert a v) = true := by
  induction m generalizing low with
  | nil => simp [Memory.erase, Memory.insert, Memory.wfFrom, ha, hv]
  | cons e rest ih =>
    obtain ⟨b, w⟩ := e
    simp only [Memory.wfFrom, Bool.and_eq_true, decide_eq_true_eq] at h
    have he := Memory.wfFrom_erase a h.2
    simp only [Memory.erase]
    split
    · exact ih (Memory.wfFrom_mono h.2 (by omega)) ha
    · simp only [Memory.insert]
      split
      · simp [Memory.wfFrom, he, h.1.2, ha, hv]; omega
      · have := ih h.2 (by omega)
        simp [Memory.wfFrom, this, h.1.2, h.1.1]

/-- A write keeps the canonical form. -/
theorem Memory.wf_write {m : Memory} (a : Nat) (v : Byte) (h : m.wf = true) : (m.write a v).wf = true := by
  unfold Memory.write Memory.wf at *
  split
  · exact Memory.wfFrom_erase a h
  · rename_i hv; exact Memory.wfFrom_insert_erase h (Nat.zero_le a) hv

theorem Memory.wf_nil : Memory.wf [] = true := rfl

theorem Memory.read_below {m : Memory} {low a : Nat} (h : Memory.wfFrom low m = true) (ha : a < low) :
    m.read a = Memory.unlisted := by
  induction m generalizing low with
  | nil => rfl
  | cons e rest ih =>
    obtain ⟨b, v⟩ := e
    simp only [Memory.wfFrom, Bool.and_eq_true, decide_eq_true_eq] at h
    have hb : b ≠ a := by omega
    simp only [Memory.read, if_neg hb]
    exact ih h.2 (by omega)

theorem Memory.wfFrom_ext {m m' : Memory} {low : Nat} (h : Memory.wfFrom low m = true)
    (h' : Memory.wfFrom low m' = true) (hr : ∀ a, m.read a = m'.read a) : m = m' := by
  induction m generalizing m' low with
  | nil =>
    cases m' with
    | nil => rfl
    | cons e rest =>
      obtain ⟨a, v⟩ := e
      have := hr a
      simp_all [Memory.read, Memory.wfFrom]
  | cons e rest ih =>
    obtain ⟨a, v⟩ := e
    simp only [Memory.wfFrom, Bool.and_eq_true, decide_eq_true_eq] at h
    have hv : v ≠ Memory.unlisted := by simpa using h.1.2
    cases m' with
    | nil => exact absurd (hr a) (by simpa [Memory.read] using hv)
    | cons e' rest' =>
      obtain ⟨b, w⟩ := e'
      simp only [Memory.wfFrom, Bool.and_eq_true, decide_eq_true_eq] at h'
      have hw : w ≠ Memory.unlisted := by simpa using h'.1.2
      have hab : a = b := by
        rcases Nat.lt_trichotomy a b with hlt | heq | hgt
        · have h1 := hr a
          simp only [Memory.read, if_true] at h1
          rw [if_neg (by omega), Memory.read_below h'.2 (by omega)] at h1
          exact absurd h1 hv
        · exact heq
        · have h1 := hr b
          simp only [Memory.read, if_true] at h1
          rw [if_neg (by omega), Memory.read_below h.2 (by omega)] at h1
          exact absurd h1.symm hw
      subst hab
      have hvw : v = w := by simpa [Memory.read] using hr a
      subst hvw
      have : rest = rest' := by
        refine ih h.2 h'.2 fun c => ?_
        by_cases hc : a = c
        · subst hc; rw [Memory.read_below h.2 (by omega), Memory.read_below h'.2 (by omega)]
        · simpa [Memory.read, hc] using hr c
      rw [this]

/-- Two memories in canonical form that read alike everywhere are equal data. -/
theorem Memory.ext_read {m m' : Memory} (h : m.wf = true) (h' : m'.wf = true)
    (hr : ∀ a, m.read a = m'.read a) : m = m' :=
  Memory.wfFrom_ext h h' hr

/-! ## Whole-buffer operations -/

theorem Memory.read_mapBytes (m : Memory) (f : Nat → Byte → Byte) (n a : Nat) :
    (m.mapBytes f n).read a = if a < n then f a (m.read a) else m.read a := by
  induction n with
  | zero => simp [Memory.mapBytes]
  | succ n ih =>
    simp only [Memory.mapBytes, Memory.read_write]
    by_cases h : a = n
    · subst h
      have hself : ((m.mapBytes f a).read a) = m.read a := by
        clear ih
        have : ∀ k, k ≤ a → (m.mapBytes f k).read a = m.read a := by
          intro k hk
          induction k with
          | zero => rfl
          | succ k ihk => simp only [Memory.mapBytes]; rw [Memory.read_write_other _ _ (by omega), ihk (by omega)]
        exact this a (Nat.le_refl a)
      simp [hself]
    · have : a < n + 1 ↔ a < n := by omega
      simp [h, ih, this]

theorem Memory.wf_mapBytes {m : Memory} (f : Nat → Byte → Byte) (n : Nat) (h : m.wf = true) :
    (m.mapBytes f n).wf = true := by
  induction n with
  | zero => exact h
  | succ n ih => exact Memory.wf_write _ _ ih

theorem Memory.read_writeBytes (m : Memory) (a b : Nat) (v : List Byte) :
    (m.writeBytes a v).read b = if a ≤ b ∧ b < a + v.length then v.getD (b - a) 0x00#8 else m.read b := by
  induction v generalizing m a with
  | nil => simp only [Memory.writeBytes, List.length_nil]; rw [if_neg (by omega)]
  | cons x xs ih =>
    simp only [Memory.writeBytes, ih, Memory.read_write, List.length_cons]
    by_cases h1 : b = a
    · subst h1; simp
    · by_cases h2 : a + 1 ≤ b ∧ b < a + 1 + xs.length
      · rw [if_pos h2, if_pos (by omega)]
        have : b - a = (b - (a + 1)) + 1 := by omega
        rw [this, List.getD_cons_succ]
      · rw [if_neg h2, if_neg h1, if_neg (by omega)]

theorem Memory.wf_writeBytes {m : Memory} (a : Nat) (v : List Byte) (h : m.wf = true) :
    (m.writeBytes a v).wf = true := by
  induction v generalizing m a with
  | nil => exact h
  | cons x xs ih => exact ih _ (Memory.wf_write _ _ h)

theorem Memory.length_readBytes (m : Memory) (a n : Nat) : (m.readBytes a n).length = n := by
  simp [Memory.readBytes]

theorem Memory.getD_readBytes (m : Memory) (a : Nat) {n k : Nat} (h : k < n) :
    (m.readBytes a n).getD k 0x00#8 = m.read (a + k) := by
  simp [Memory.readBytes, List.getD, h]

/-! ## The pin view -/

theorem getLsbD_setBit {w : Nat} (v : BitVec w) (k i : Nat) (b : Bool) (hk : k < w) :
    (setBit v k b).getLsbD i = if i = k then b else v.getLsbD i := by
  unfold setBit
  cases b <;> simp <;> grind

/-- The one law of writing a pin: the pin written, and every other pin as before. -/
theorem Memory.readPin_writePin (m : Memory) (p q : Nat) (b : Bool) :
    (m.writePin p b).readPin q = if q = p then b else m.readPin q := by
  unfold Memory.writePin Memory.readPin
  rw [Memory.read_write]
  by_cases h : q / 8 = p / 8
  · rw [if_pos h, getLsbD_setBit _ _ _ _ (Nat.mod_lt _ (by decide)), h]
    have : q % 8 = p % 8 ↔ q = p := by omega
    simp [this]
  · have : q ≠ p := by rintro rfl; exact h rfl
    simp [h, this]

theorem Memory.wf_writePin {m : Memory} (p : Nat) (b : Bool) (h : m.wf = true) : (m.writePin p b).wf = true :=
  Memory.wf_write _ _ h

theorem Memory.read_eq_of_readPin {m m' : Memory} (h : ∀ p, m.readPin p = m'.readPin p) (a : Nat) :
    m.read a = m'.read a := by
  apply BitVec.eq_of_getLsbD_eq
  intro k hk
  have := h (8 * a + k)
  unfold Memory.readPin at this
  rwa [show (8 * a + k) / 8 = a by omega, show (8 * a + k) % 8 = k by omega] at this

/-- Bit `k` of byte `a` is pin `8*a + k`. -/
theorem Memory.getLsbD_read (m : Memory) (a : Nat) {k : Nat} (hk : k < 8) :
    (m.read a).getLsbD k = m.readPin (8 * a + k) := by
  unfold Memory.readPin
  rw [show (8 * a + k) / 8 = a by omega, show (8 * a + k) % 8 = k by omega]

theorem Memory.getLsbD_readSegment (m : Memory) (start : Nat) {n : Nat} (j : Nat) (hn : n ≤ 16) :
    (m.readSegment start n).getLsbD j = (decide (j < n) && m.readPin (start + j)) := by
  induction n with
  | zero => simp [Memory.readSegment]
  | succ n ih =>
    rw [Memory.readSegment, getLsbD_setBit _ _ _ _ (by omega), ih (by omega)]
    grind

theorem Memory.readPin_writeSegment (m : Memory) (start : Nat) (value : BitVec 16) (n p : Nat) :
    (m.writeSegment start value n).readPin p =
      if start ≤ p ∧ p < start + n then value.getLsbD (p - start) else m.readPin p := by
  induction n with
  | zero => simp only [Memory.writeSegment]; rw [if_neg (by omega)]
  | succ n ih =>
    rw [Memory.writeSegment, Memory.readPin_writePin, ih]
    by_cases h : p = start + n
    · subst h; simp
    · rw [if_neg h]
      have : (start ≤ p ∧ p < start + n) ↔ (start ≤ p ∧ p < start + (n + 1)) := by omega
      simp only [this]

theorem Memory.wf_writeSegment {m : Memory} (start : Nat) (value : BitVec 16) (n : Nat) (h : m.wf = true) :
    (m.writeSegment start value n).wf = true := by
  induction n with
  | zero => exact h
  | succ n ih => exact Memory.wf_writePin _ _ ih

end Sys2Proof.Machine
end

