-- ==== Sys2Proof/Laws/State.lean ====
section
/-! SUPPORT. What each update of the state does to each field: one lemma per field per update. -/

namespace Sys2Proof.Machine

variable (s : State)


/-! ## respond, done, raise -/

@[simp] theorem State.respond_phase (e : Status) (d : BitVec 16) (o : List Byte) : (s.respond e d o).phase = s.phase := rfl
@[simp] theorem State.respond_cfg (e : Status) (d : BitVec 16) (o : List Byte) : (s.respond e d o).cfg = s.cfg := rfl
@[simp] theorem State.respond_buf (e : Status) (d : BitVec 16) (o : List Byte) : (s.respond e d o).buf = s.buf := rfl
@[simp] theorem State.respond_lvData (e : Status) (d : BitVec 16) (o : List Byte) : (s.respond e d o).lvData = s.lvData := rfl
@[simp] theorem State.respond_lvClk (e : Status) (d : BitVec 16) (o : List Byte) : (s.respond e d o).lvClk = s.lvClk := rfl
@[simp] theorem State.respond_lvLatch (e : Status) (d : BitVec 16) (o : List Byte) : (s.respond e d o).lvLatch = s.lvLatch := rfl
@[simp] theorem State.respond_resp (e : Status) (d : BitVec 16) (o : List Byte) : (s.respond e d o).resp = ⟨e, d, o⟩ := rfl
@[simp] theorem State.respond_trace (e : Status) (d : BitVec 16) (o : List Byte) : (s.respond e d o).trace = s.trace := rfl
@[simp] theorem State.respond_chain (e : Status) (d : BitVec 16) (o : List Byte) : (s.respond e d o).chain = s.chain := rfl
@[simp] theorem State.respond_port (e : Status) (d : BitVec 16) (o : List Byte) : (s.respond e d o).port = s.port := rfl
@[simp] theorem State.respond_request (e : Status) (d : BitVec 16) (o : List Byte) : (s.respond e d o).request = s.request := rfl
@[simp] theorem State.respond_delivered (e : Status) (d : BitVec 16) (o : List Byte) : (s.respond e d o).delivered = s.delivered := rfl
@[simp] theorem State.respond_draws (e : Status) (d : BitVec 16) (o : List Byte) : (s.respond e d o).draws = s.draws := rfl
@[simp] theorem State.done_phase : (s.done).phase = s.phase := rfl
@[simp] theorem State.done_cfg : (s.done).cfg = s.cfg := rfl
@[simp] theorem State.done_buf : (s.done).buf = s.buf := rfl
@[simp] theorem State.done_lvData : (s.done).lvData = s.lvData := rfl
@[simp] theorem State.done_lvClk : (s.done).lvClk = s.lvClk := rfl
@[simp] theorem State.done_lvLatch : (s.done).lvLatch = s.lvLatch := rfl
@[simp] theorem State.done_resp : (s.done).resp = ⟨.ok, 0#16, []⟩ := rfl
@[simp] theorem State.done_trace : (s.done).trace = s.trace := rfl
@[simp] theorem State.done_chain : (s.done).chain = s.chain := rfl
@[simp] theorem State.done_port : (s.done).port = s.port := rfl
@[simp] theorem State.done_request : (s.done).request = s.request := rfl
@[simp] theorem State.done_delivered : (s.done).delivered = s.delivered := rfl
@[simp] theorem State.done_draws : (s.done).draws = s.draws := rfl
@[simp] theorem State.raise_phase (e : Status) : (s.raise e).phase = s.phase := rfl
@[simp] theorem State.raise_cfg (e : Status) : (s.raise e).cfg = s.cfg := rfl
@[simp] theorem State.raise_buf (e : Status) : (s.raise e).buf = s.buf := rfl
@[simp] theorem State.raise_lvData (e : Status) : (s.raise e).lvData = s.lvData := rfl
@[simp] theorem State.raise_lvClk (e : Status) : (s.raise e).lvClk = s.lvClk := rfl
@[simp] theorem State.raise_lvLatch (e : Status) : (s.raise e).lvLatch = s.lvLatch := rfl
@[simp] theorem State.raise_resp (e : Status) : (s.raise e).resp = ⟨e, 0#16, []⟩ := rfl
@[simp] theorem State.raise_trace (e : Status) : (s.raise e).trace = s.trace := rfl
@[simp] theorem State.raise_chain (e : Status) : (s.raise e).chain = s.chain := rfl
@[simp] theorem State.raise_port (e : Status) : (s.raise e).port = s.port := rfl
@[simp] theorem State.raise_request (e : Status) : (s.raise e).request = s.request := rfl
@[simp] theorem State.raise_delivered (e : Status) : (s.raise e).delivered = s.delivered := rfl
@[simp] theorem State.raise_draws (e : Status) : (s.raise e).draws = s.draws := rfl

/-! ## accept, deliver -/

@[simp] theorem State.accept_phase (rest : List Byte) : (s.accept rest).phase = s.phase := rfl
@[simp] theorem State.accept_cfg (rest : List Byte) : (s.accept rest).cfg = s.cfg := rfl
@[simp] theorem State.accept_buf (rest : List Byte) : (s.accept rest).buf = s.buf := rfl
@[simp] theorem State.accept_lvData (rest : List Byte) : (s.accept rest).lvData = s.lvData := rfl
@[simp] theorem State.accept_lvClk (rest : List Byte) : (s.accept rest).lvClk = s.lvClk := rfl
@[simp] theorem State.accept_lvLatch (rest : List Byte) : (s.accept rest).lvLatch = s.lvLatch := rfl
@[simp] theorem State.accept_resp (rest : List Byte) : (s.accept rest).resp = s.resp := rfl
@[simp] theorem State.accept_trace (rest : List Byte) : (s.accept rest).trace = s.trace := rfl
@[simp] theorem State.accept_chain (rest : List Byte) : (s.accept rest).chain = s.chain := rfl
@[simp] theorem State.accept_port (rest : List Byte) : (s.accept rest).port = rest := rfl
@[simp] theorem State.accept_request (rest : List Byte) : (s.accept rest).request = s.request := rfl
@[simp] theorem State.accept_delivered (rest : List Byte) : (s.accept rest).delivered = s.delivered := rfl
@[simp] theorem State.accept_draws (rest : List Byte) : (s.accept rest).draws = s.draws := rfl
@[simp] theorem State.deliver_phase : (s.deliver).phase = s.phase := rfl
@[simp] theorem State.deliver_cfg : (s.deliver).cfg = s.cfg := rfl
@[simp] theorem State.deliver_buf : (s.deliver).buf = s.buf := rfl
@[simp] theorem State.deliver_lvData : (s.deliver).lvData = s.lvData := rfl
@[simp] theorem State.deliver_lvClk : (s.deliver).lvClk = s.lvClk := rfl
@[simp] theorem State.deliver_lvLatch : (s.deliver).lvLatch = s.lvLatch := rfl
@[simp] theorem State.deliver_resp : (s.deliver).resp = s.resp := rfl
@[simp] theorem State.deliver_trace : (s.deliver).trace = s.trace := rfl
@[simp] theorem State.deliver_chain : (s.deliver).chain = s.chain := rfl
@[simp] theorem State.deliver_port : (s.deliver).port = s.port := rfl
@[simp] theorem State.deliver_request : (s.deliver).request = s.request := rfl
@[simp] theorem State.deliver_delivered : (s.deliver).delivered = s.delivered ++ [s.resp] := rfl
@[simp] theorem State.deliver_draws : (s.deliver).draws = s.draws := rfl

/-! ## the masked updates of BUF -/

@[simp] theorem State.masked_phase (g : Byte → Byte → Byte) (m : List Byte) : (s.masked g m).phase = s.phase := rfl
@[simp] theorem State.masked_cfg (g : Byte → Byte → Byte) (m : List Byte) : (s.masked g m).cfg = s.cfg := rfl
@[simp] theorem State.masked_lvData (g : Byte → Byte → Byte) (m : List Byte) : (s.masked g m).lvData = s.lvData := rfl
@[simp] theorem State.masked_lvClk (g : Byte → Byte → Byte) (m : List Byte) : (s.masked g m).lvClk = s.lvClk := rfl
@[simp] theorem State.masked_lvLatch (g : Byte → Byte → Byte) (m : List Byte) : (s.masked g m).lvLatch = s.lvLatch := rfl
@[simp] theorem State.masked_resp (g : Byte → Byte → Byte) (m : List Byte) : (s.masked g m).resp = s.resp := rfl
@[simp] theorem State.masked_trace (g : Byte → Byte → Byte) (m : List Byte) : (s.masked g m).trace = s.trace := rfl
@[simp] theorem State.masked_chain (g : Byte → Byte → Byte) (m : List Byte) : (s.masked g m).chain = s.chain := rfl
@[simp] theorem State.masked_port (g : Byte → Byte → Byte) (m : List Byte) : (s.masked g m).port = s.port := rfl
@[simp] theorem State.masked_request (g : Byte → Byte → Byte) (m : List Byte) : (s.masked g m).request = s.request := rfl
@[simp] theorem State.masked_delivered (g : Byte → Byte → Byte) (m : List Byte) : (s.masked g m).delivered = s.delivered := rfl
@[simp] theorem State.masked_draws (g : Byte → Byte → Byte) (m : List Byte) : (s.masked g m).draws = s.draws := rfl
@[simp] theorem State.stamp_phase (m v : List Byte) : (s.stamp m v).phase = s.phase := rfl
@[simp] theorem State.stamp_cfg (m v : List Byte) : (s.stamp m v).cfg = s.cfg := rfl
@[simp] theorem State.stamp_lvData (m v : List Byte) : (s.stamp m v).lvData = s.lvData := rfl
@[simp] theorem State.stamp_lvClk (m v : List Byte) : (s.stamp m v).lvClk = s.lvClk := rfl
@[simp] theorem State.stamp_lvLatch (m v : List Byte) : (s.stamp m v).lvLatch = s.lvLatch := rfl
@[simp] theorem State.stamp_resp (m v : List Byte) : (s.stamp m v).resp = s.resp := rfl
@[simp] theorem State.stamp_trace (m v : List Byte) : (s.stamp m v).trace = s.trace := rfl
@[simp] theorem State.stamp_chain (m v : List Byte) : (s.stamp m v).chain = s.chain := rfl
@[simp] theorem State.stamp_port (m v : List Byte) : (s.stamp m v).port = s.port := rfl
@[simp] theorem State.stamp_request (m v : List Byte) : (s.stamp m v).request = s.request := rfl
@[simp] theorem State.stamp_delivered (m v : List Byte) : (s.stamp m v).delivered = s.delivered := rfl
@[simp] theorem State.stamp_draws (m v : List Byte) : (s.stamp m v).draws = s.draws := rfl

/-! ## the PinDriver -/

@[simp] theorem State.logEvent_phase (e : Event) : (s.logEvent e).phase = s.phase := rfl
@[simp] theorem State.logEvent_cfg (e : Event) : (s.logEvent e).cfg = s.cfg := rfl
@[simp] theorem State.logEvent_buf (e : Event) : (s.logEvent e).buf = s.buf := rfl
@[simp] theorem State.logEvent_lvData (e : Event) : (s.logEvent e).lvData = s.lvData := rfl
@[simp] theorem State.logEvent_lvClk (e : Event) : (s.logEvent e).lvClk = s.lvClk := rfl
@[simp] theorem State.logEvent_lvLatch (e : Event) : (s.logEvent e).lvLatch = s.lvLatch := rfl
@[simp] theorem State.logEvent_resp (e : Event) : (s.logEvent e).resp = s.resp := rfl
@[simp] theorem State.logEvent_trace (e : Event) : (s.logEvent e).trace = s.trace ++ [e] := rfl
@[simp] theorem State.logEvent_chain (e : Event) : (s.logEvent e).chain = s.chain := rfl
@[simp] theorem State.logEvent_port (e : Event) : (s.logEvent e).port = s.port := rfl
@[simp] theorem State.logEvent_request (e : Event) : (s.logEvent e).request = s.request := rfl
@[simp] theorem State.logEvent_delivered (e : Event) : (s.logEvent e).delivered = s.delivered := rfl
@[simp] theorem State.logEvent_draws (e : Event) : (s.logEvent e).draws = s.draws := rfl
@[simp] theorem State.delay_phase : (s.delay).phase = s.phase := rfl
@[simp] theorem State.delay_cfg : (s.delay).cfg = s.cfg := rfl
@[simp] theorem State.delay_buf : (s.delay).buf = s.buf := rfl
@[simp] theorem State.delay_lvData : (s.delay).lvData = s.lvData := rfl
@[simp] theorem State.delay_lvClk : (s.delay).lvClk = s.lvClk := rfl
@[simp] theorem State.delay_lvLatch : (s.delay).lvLatch = s.lvLatch := rfl
@[simp] theorem State.delay_resp : (s.delay).resp = s.resp := rfl
@[simp] theorem State.delay_trace : (s.delay).trace = s.trace ++ [.delay s.cfg.tHold] := rfl
@[simp] theorem State.delay_chain : (s.delay).chain = s.chain := rfl
@[simp] theorem State.delay_port : (s.delay).port = s.port := rfl
@[simp] theorem State.delay_request : (s.delay).request = s.request := rfl
@[simp] theorem State.delay_delivered : (s.delay).delivered = s.delivered := rfl
@[simp] theorem State.delay_draws : (s.delay).draws = s.draws := rfl
@[simp] theorem State.setLevel_phase (line : Line) (b : Level) : (s.setLevel line b).phase = s.phase := by cases line <;> rfl
@[simp] theorem State.setLevel_cfg (line : Line) (b : Level) : (s.setLevel line b).cfg = s.cfg := by cases line <;> rfl
@[simp] theorem State.setLevel_buf (line : Line) (b : Level) : (s.setLevel line b).buf = s.buf := by cases line <;> rfl
@[simp] theorem State.setLevel_lvData (line : Line) (b : Level) : (s.setLevel line b).lvData = if line = .data then some b else s.lvData := by cases line <;> rfl
@[simp] theorem State.setLevel_lvClk (line : Line) (b : Level) : (s.setLevel line b).lvClk = if line = .clk then some b else s.lvClk := by cases line <;> rfl
@[simp] theorem State.setLevel_lvLatch (line : Line) (b : Level) : (s.setLevel line b).lvLatch = if line = .latch then some b else s.lvLatch := by cases line <;> rfl
@[simp] theorem State.setLevel_resp (line : Line) (b : Level) : (s.setLevel line b).resp = s.resp := by cases line <;> rfl
@[simp] theorem State.setLevel_trace (line : Line) (b : Level) : (s.setLevel line b).trace = s.trace := by cases line <;> rfl
@[simp] theorem State.setLevel_chain (line : Line) (b : Level) : (s.setLevel line b).chain = s.chain := by cases line <;> rfl
@[simp] theorem State.setLevel_port (line : Line) (b : Level) : (s.setLevel line b).port = s.port := by cases line <;> rfl
@[simp] theorem State.setLevel_request (line : Line) (b : Level) : (s.setLevel line b).request = s.request := by cases line <;> rfl
@[simp] theorem State.setLevel_delivered (line : Line) (b : Level) : (s.setLevel line b).delivered = s.delivered := by cases line <;> rfl
@[simp] theorem State.setLevel_draws (line : Line) (b : Level) : (s.setLevel line b).draws = s.draws := by cases line <;> rfl
@[simp] theorem State.drive_phase (line : Line) (b : Level) : (s.drive line b).phase = s.phase := by cases line <;> rfl
@[simp] theorem State.drive_cfg (line : Line) (b : Level) : (s.drive line b).cfg = s.cfg := by cases line <;> rfl
@[simp] theorem State.drive_buf (line : Line) (b : Level) : (s.drive line b).buf = s.buf := by cases line <;> rfl
@[simp] theorem State.drive_lvData (line : Line) (b : Level) : (s.drive line b).lvData = if line = .data then some b else s.lvData := by cases line <;> rfl
@[simp] theorem State.drive_lvClk (line : Line) (b : Level) : (s.drive line b).lvClk = if line = .clk then some b else s.lvClk := by cases line <;> rfl
@[simp] theorem State.drive_lvLatch (line : Line) (b : Level) : (s.drive line b).lvLatch = if line = .latch then some b else s.lvLatch := by cases line <;> rfl
@[simp] theorem State.drive_resp (line : Line) (b : Level) : (s.drive line b).resp = s.resp := by cases line <;> rfl
@[simp] theorem State.drive_trace (line : Line) (b : Level) : (s.drive line b).trace = s.trace ++ [.drive (s.cfg.pin line) b] := by cases line <;> rfl
@[simp] theorem State.drive_chain (line : Line) (b : Level) : (s.drive line b).chain = s.chainAfter line b := by cases line <;> rfl
@[simp] theorem State.drive_port (line : Line) (b : Level) : (s.drive line b).port = s.port := by cases line <;> rfl
@[simp] theorem State.drive_request (line : Line) (b : Level) : (s.drive line b).request = s.request := by cases line <;> rfl
@[simp] theorem State.drive_delivered (line : Line) (b : Level) : (s.drive line b).delivered = s.delivered := by cases line <;> rfl
@[simp] theorem State.drive_draws (line : Line) (b : Level) : (s.drive line b).draws = s.drawsAfter line b := by cases line <;> rfl
@[simp] theorem State.configure_phase (line : Line) : (s.configure line).phase = s.phase := rfl
@[simp] theorem State.configure_cfg (line : Line) : (s.configure line).cfg = s.cfg := rfl
@[simp] theorem State.configure_buf (line : Line) : (s.configure line).buf = s.buf := rfl
@[simp] theorem State.configure_lvData (line : Line) : (s.configure line).lvData = s.lvData := rfl
@[simp] theorem State.configure_lvClk (line : Line) : (s.configure line).lvClk = s.lvClk := rfl
@[simp] theorem State.configure_lvLatch (line : Line) : (s.configure line).lvLatch = s.lvLatch := rfl
@[simp] theorem State.configure_resp (line : Line) : (s.configure line).resp = s.resp := rfl
@[simp] theorem State.configure_trace (line : Line) : (s.configure line).trace = s.trace ++ [.configure (s.cfg.pin line)] := rfl
@[simp] theorem State.configure_port (line : Line) : (s.configure line).port = s.port := rfl
@[simp] theorem State.configure_request (line : Line) : (s.configure line).request = s.request := rfl
@[simp] theorem State.configure_delivered (line : Line) : (s.configure line).delivered = s.delivered := rfl
@[simp] theorem State.configure_draws (line : Line) : (s.configure line).draws = s.draws + 1 := rfl
@[simp] theorem State.configure_chain_m (line : Line) : (s.configure line).chain.m = s.chain.m := rfl

/-! ## construction -/

@[simp] theorem State.fresh_phase (p : ConstructParams) : (s.fresh p).phase = s.phase := rfl
@[simp] theorem State.fresh_cfg (p : ConstructParams) : (s.fresh p).cfg = constructCfg p := rfl
@[simp] theorem State.fresh_buf (p : ConstructParams) : (s.fresh p).buf = [] := rfl
@[simp] theorem State.fresh_lvData (p : ConstructParams) : (s.fresh p).lvData = none := rfl
@[simp] theorem State.fresh_lvClk (p : ConstructParams) : (s.fresh p).lvClk = none := rfl
@[simp] theorem State.fresh_lvLatch (p : ConstructParams) : (s.fresh p).lvLatch = none := rfl
@[simp] theorem State.fresh_resp (p : ConstructParams) : (s.fresh p).resp = s.resp := rfl
@[simp] theorem State.fresh_trace (p : ConstructParams) : (s.fresh p).trace = [] := rfl
@[simp] theorem State.fresh_chain (p : ConstructParams) : (s.fresh p).chain = s.chain := rfl
@[simp] theorem State.fresh_port (p : ConstructParams) : (s.fresh p).port = s.port := rfl
@[simp] theorem State.fresh_request (p : ConstructParams) : (s.fresh p).request = none := rfl
@[simp] theorem State.fresh_delivered (p : ConstructParams) : (s.fresh p).delivered = s.delivered := rfl
@[simp] theorem State.fresh_draws (p : ConstructParams) : (s.fresh p).draws = s.draws := rfl

end Sys2Proof.Machine
end

