-- ==== Sys2Proof/Laws/Exec.lean ====
section
/-! SUPPORT. What the shared operations of the commands can do, and what any command can do. -/

namespace Sys2Proof.Machine

/-- A checked command answers a next state: the raised status, or its effect. -/
theorem State.checked_next {s t effect : State} {check : Option Status} (h : s.checked check effect = .next t) :
    (∃ e, check = some e ∧ t = s.raise e) ∨ (check = none ∧ t = effect) := by
  cases check with
  | none => exact .inr ⟨rfl, by simpa [State.checked] using h.symm⟩
  | some e => exact .inl ⟨e, rfl, by simpa [State.checked] using h.symm⟩

theorem State.checked_none (s effect : State) : s.checked none effect = .next effect := rfl

theorem State.checked_some (s effect : State) (e : Status) : s.checked (some e) effect = .next (s.raise e) := rfl

theorem checkPin_none {c : Cfg} {pin : PinIndex} (h : pin.toNat ≤ c.maxBit) : checkPin c pin = none := by
  simp [checkPin]; omega

theorem checkPin_some {c : Cfg} {pin : PinIndex} (h : c.maxBit < pin.toNat) :
    checkPin c pin = some .pinOutOfRange := by
  simp [checkPin, h]

theorem checkSegment_none {c : Cfg} {start : PinIndex} {count : BitVec 8} (h1 : 1 ≤ count.toNat)
    (h16 : count.toNat ≤ 16) (h : start.toNat + count.toNat - 1 ≤ c.maxBit) : checkSegment c start count = none := by
  unfold checkSegment
  rw [if_neg (by omega), if_neg (by omega)]

theorem checkSegment_some {c : Cfg} {start : PinIndex} {count : BitVec 8}
    (h : count.toNat < 1 ∨ 16 < count.toNat ∨ c.maxBit < start.toNat + count.toNat - 1) :
    checkSegment c start count = some .pinOutOfRange := by
  unfold checkSegment
  split
  · rfl
  · rw [if_pos (by omega)]

theorem checkPayload_none {c : Cfg} {b : List Byte} (h : b.length = c.count) : checkPayload c (some b) = none := by
  simp [checkPayload, h]

theorem checkPayloadPair_none {c : Cfg} {m v : List Byte} (hm : m.length = c.count) (hv : v.length = c.count) :
    checkPayloadPair c (some (m, v)) = none := by
  simp [checkPayloadPair, hm, hv]

/-- The statuses the checks raise (R221 to R223). -/
theorem checkPin_eq {c : Cfg} {pin : PinIndex} {e : Status} (h : checkPin c pin = some e) : e = .pinOutOfRange := by
  unfold checkPin at h; split at h <;> simp_all

theorem checkSegment_eq {c : Cfg} {start : PinIndex} {count : BitVec 8} {e : Status}
    (h : checkSegment c start count = some e) : e = .pinOutOfRange := by
  unfold checkSegment at h; split at h
  · simp_all
  · split at h <;> simp_all

theorem checkPayload_eq {c : Cfg} {b : Option (List Byte)} {e : Status} (h : checkPayload c b = some e) :
    e = .nullOrMissingBuffer ∨ e = .lengthMismatch := by
  cases b with
  | none => left; simpa [checkPayload] using h.symm
  | some b => right; simp only [checkPayload] at h; split at h <;> simp_all

theorem checkPayloadPair_eq {c : Cfg} {b : Option (List Byte × List Byte)} {e : Status}
    (h : checkPayloadPair c b = some e) : e = .nullOrMissingBuffer ∨ e = .lengthMismatch := by
  cases b with
  | none => left; simpa [checkPayloadPair] using h.symm
  | some b => right; simp only [checkPayloadPair] at h; split at h <;> simp_all

/-! ## Bytes of `BUF` after the masked operations -/

theorem State.read_masked (s : State) (f : Byte → Byte → Byte) (m : List Byte) (a : Nat) :
    (s.masked f m).buf.read a = if a < s.cfg.count then f (s.buf.read a) (bufferByte m a) else s.buf.read a :=
  Memory.read_mapBytes _ _ _ _

theorem State.read_stamp (s : State) (m v : List Byte) (a : Nat) :
    (s.stamp m v).buf.read a =
      if a < s.cfg.count then
        (s.buf.read a &&& ~~~(bufferByte m a)) ||| (bufferByte v a &&& bufferByte m a)
      else s.buf.read a :=
  Memory.read_mapBytes _ _ _ _

/-- A byte past the end of a buffer operand selects and supplies nothing. -/
theorem bufferByte_of_le {b : List Byte} {i : Nat} (h : b.length ≤ i) : bufferByte b i = 0x00#8 := by
  simp [bufferByte, List.getD, h]

/-! ## Any command -/

/-- What any command can do: raise a failing status; finish with OK and change `BUF` and the response at most; or be
TRANSMIT. -/
theorem exec_next {i : Instr} {s t : State} (h : exec i s = .next t) :
    (∃ e, e ≠ .ok ∧ t = s.raise e) ∨
    (i ≠ .transmit ∧ t = { s with buf := t.buf, resp := t.resp } ∧ t.resp.status = .ok) ∨
    (i = .transmit ∧ t = s.transmit) := by
  cases i with
  | fill v => exact .inr (.inl ⟨nofun, by cases h; exact ⟨rfl, rfl⟩⟩)
  | readbuf => exact .inr (.inl ⟨nofun, by cases h; exact ⟨rfl, rfl⟩⟩)
  | transmit => exact .inr (.inr ⟨rfl, by cases h; rfl⟩)
  | get p | set p b | toggle p =>
    rcases State.checked_next h with ⟨e, he, rfl⟩ | ⟨-, rfl⟩
    · exact .inl ⟨e, by rw [checkPin_eq he]; nofun, rfl⟩
    · exact .inr (.inl ⟨nofun, rfl, rfl⟩)
  | rdseg p c | wrseg p c v =>
    rcases State.checked_next h with ⟨e, he, rfl⟩ | ⟨-, rfl⟩
    · exact .inl ⟨e, by rw [checkSegment_eq he]; nofun, rfl⟩
    · exact .inr (.inl ⟨nofun, rfl, rfl⟩)
  | mset m | mreset m | mtoggle m | overwrite m =>
    rcases State.checked_next h with ⟨e, he, rfl⟩ | ⟨-, rfl⟩
    · exact .inl ⟨e, by rcases checkPayload_eq he with rfl | rfl <;> nofun, rfl⟩
    · exact .inr (.inl ⟨nofun, rfl, rfl⟩)
  | mstamp mv =>
    rcases State.checked_next h with ⟨e, he, rfl⟩ | ⟨-, rfl⟩
    · exact .inl ⟨e, by rcases checkPayloadPair_eq he with rfl | rfl <;> nofun, rfl⟩
    · exact .inr (.inl ⟨nofun, rfl, rfl⟩)

end Sys2Proof.Machine
end

