-- ==== Sys2Proof/Laws/Frame.lean ====
section
/-! SUPPORT. What a list of PinDriver calls does, and what the slot of one bit does to the lines and the chain. -/

namespace Sys2Proof.Machine

/-! ## Any list of calls -/

theorem State.runCalls_nil (s : State) : s.runCalls [] = s := rfl

theorem State.runCalls_cons (s : State) (c : PinCall) (cs : List PinCall) :
    s.runCalls (c :: cs) = (s.perform c).runCalls cs := rfl

theorem State.runCalls_append (s : State) (as bs : List PinCall) :
    s.runCalls (as ++ bs) = (s.runCalls as).runCalls bs := List.foldl_append

/-- What no PinDriver call changes. -/
theorem State.perform_keeps (s : State) (c : PinCall) :
    (s.perform c).phase = s.phase ∧ (s.perform c).cfg = s.cfg ∧ (s.perform c).buf = s.buf ∧
    (s.perform c).resp = s.resp ∧ (s.perform c).port = s.port ∧ (s.perform c).request = s.request ∧
    (s.perform c).delivered = s.delivered := by
  cases c <;> simp [State.perform]

theorem State.runCalls_keeps (s : State) (cs : List PinCall) :
    (s.runCalls cs).phase = s.phase ∧ (s.runCalls cs).cfg = s.cfg ∧ (s.runCalls cs).buf = s.buf ∧
    (s.runCalls cs).resp = s.resp ∧ (s.runCalls cs).port = s.port ∧ (s.runCalls cs).request = s.request ∧
    (s.runCalls cs).delivered = s.delivered := by
  induction cs generalizing s with
  | nil => simp [State.runCalls_nil]
  | cons c cs ih =>
    have h1 := State.perform_keeps s c
    have h2 := ih (s.perform c)
    rw [State.runCalls_cons]
    simp_all

/-- The events of the calls are appended to `TRACE` in order. -/
theorem State.runCalls_trace (s : State) (cs : List PinCall) :
    (s.runCalls cs).trace = s.trace ++ cs.map (PinCall.event s.cfg) := by
  induction cs generalizing s with
  | nil => simp [State.runCalls_nil]
  | cons c cs ih =>
    rw [State.runCalls_cons, ih, (State.perform_keeps s c).2.1]
    cases c <;> simp [State.perform, PinCall.event]

/-! ## One bit -/

/-- The slot of one bit: the lines, the chain shifted by it, four events (R184, R192). No free value is used. -/
theorem State.runCalls_bitSlot (s : State) (b : Bool) :
    s.runCalls (bitSlot b) =
      { s with
        lvData := some b
        lvClk := some true
        chain := s.chain.shift b
        trace := s.trace ++ [.drive s.cfg.pinClk false, .drive s.cfg.pinData b, .delay s.cfg.tHold,
          .drive s.cfg.pinClk true] } := by
  simp [State.runCalls, bitSlot, State.perform, State.drive, State.delay, State.logEvent, State.setLevel,
    State.chainAfter, State.drawsAfter, risingEdge, shownLevel, Cfg.pin]

/-! ## The shape of a frame -/

theorem length_byteSlots (b : Byte) (k : Nat) : (byteSlots b k).length = 4 * k := by
  induction k with
  | zero => rfl
  | succ k ih => simp [byteSlots, bitSlot, ih]; omega

theorem length_bufferSlots (snap : List Byte) (n : Nat) : (bufferSlots snap n).length = 32 * n := by
  induction n with
  | zero => rfl
  | succ n ih => simp [bufferSlots, length_byteSlots, ih]; omega

end Sys2Proof.Machine
end

