-- ==== Sys2Proof/Laws/PerInstr.lean ====
section
/-! SUPPORT. Statements made for every instruction, one lemma per constructor. `PayloadLength`: the payload length a decoder
finds from the word alone is the length of the payload the encoder attaches (spec/30_encoding.md rules R75, R77). -/

namespace Sys2Proof.Laws.PayloadLength

/-- The word of a well-formed command announces exactly its payload. -/
def Statement (i : Instr) : Prop :=
  i.wellFormed = true → payloadLength i.fields = i.payload.length

/-- The payload length of a one-buffer word. -/
theorem one_buffer (o : Opcode) (h : o.payloadBuffers = 1) (b : Option (List Byte)) (hb : bufferFits b = true) :
    payloadLength (Fields.withBuffer o b) = (b.getD []).length := by
  cases b with
  | none => simp [payloadLength, Fields.withBuffer, Fields.bare, Opcode.ofCode_code]
  | some b =>
    have hb : b.length < 256 := by simpa [bufferFits] using hb
    simp [payloadLength, Fields.withBuffer, Fields.bare, Opcode.ofCode_code, h, Nat.mod_eq_of_lt hb]

theorem get (pin : PinIndex) : Statement (.get pin) := fun _ => rfl

theorem set (pin : PinIndex) (bit : Bool) : Statement (.set pin bit) := fun _ => rfl

theorem toggle (pin : PinIndex) : Statement (.toggle pin) := fun _ => rfl

theorem fill (byteValue : Byte) : Statement (.fill byteValue) := fun _ => rfl

theorem mset (mask : Option (List Byte)) : Statement (.mset mask) := one_buffer .mset rfl mask

theorem mreset (mask : Option (List Byte)) : Statement (.mreset mask) := one_buffer .mreset rfl mask

theorem mtoggle (mask : Option (List Byte)) : Statement (.mtoggle mask) := one_buffer .mtoggle rfl mask

theorem rdseg (start : PinIndex) (count : BitVec 8) : Statement (.rdseg start count) := fun _ => rfl

theorem wrseg (start : PinIndex) (count : BitVec 8) (value : BitVec 16) : Statement (.wrseg start count value) :=
  fun _ => rfl

theorem overwrite (new : Option (List Byte)) : Statement (.overwrite new) := one_buffer .overwrite rfl new

theorem mstamp (maskVal : Option (List Byte × List Byte)) : Statement (.mstamp maskVal) := by
  intro h
  cases maskVal with
  | none => rfl
  | some mv =>
    obtain ⟨m, v⟩ := mv
    have hm : m.length < 256 ∧ m.length = v.length := by simpa [Instr.wellFormed, bufferPairFits] using h
    simp [Instr.fields, Instr.payload, payloadLength, Fields.withBuffer, Fields.bare, Opcode.ofCode_code,
      Opcode.payloadBuffers, Nat.mod_eq_of_lt hm.1]
    omega

theorem readbuf : Statement .readbuf := fun _ => rfl

theorem transmit : Statement .transmit := fun _ => rfl

end Sys2Proof.Laws.PayloadLength
end

