-- ==== Sys2Proof/Laws/Step.lean ====
section
/-! SUPPORT. What one step can do. -/

namespace Sys2Proof.Machine

/-- A ready block's step, by what the front of the port holds. -/
theorem step_of_ready {s : State} (h : s.phase = .ready) :
    step s =
      match decode s.port with
      | .shortWord => .fault .awaitingCommand
      | .shortPayload => .fault .awaitingPayload
      | .illegal _ rest => deliverOutcome (execIllegal (s.accept rest))
      | .command i rest => deliverOutcome (exec i (s.accept rest)) := by
  cases s
  cases h
  rfl

/-- A step that answers a next state is a construction, an illegal command, or a command. -/
theorem step_next {s t : State} (h : step s = .next t) :
    (∃ p, s.phase = .unbuilt ∧ s.request = some p ∧ construct p s = .next t) ∨
    (∃ why rest, s.phase = .ready ∧ decode s.port = .illegal why rest ∧
      t = ((s.accept rest).raise .illegalCommand).deliver) ∨
    (∃ i rest u, s.phase = .ready ∧ decode s.port = .command i rest ∧ exec i (s.accept rest) = .next u ∧
      t = u.deliver) := by
  cases hp : s.phase with
  | unbuilt =>
    unfold step at h
    rw [hp] at h
    cases hr : s.request with
    | none => simp [hr] at h
    | some p => exact .inl ⟨p, rfl, rfl, by simpa [hr] using h⟩
  | ready =>
    rw [step_of_ready hp] at h
    cases hd : decode s.port with
    | shortWord => simp [hd] at h
    | shortPayload => simp [hd] at h
    | illegal why rest =>
      exact .inr (.inl ⟨why, rest, rfl, rfl, by simpa [hd, deliverOutcome, execIllegal] using h.symm⟩)
    | command i rest =>
      rw [hd] at h
      cases he : exec i (s.accept rest) with
      | next u => exact .inr (.inr ⟨i, rest, u, rfl, rfl, he, by simpa [he, deliverOutcome] using h.symm⟩)
      | fault f => simp [he, deliverOutcome] at h
      | refused r => simp [he, deliverOutcome] at h

end Sys2Proof.Machine
end

