-- ==== Sys2Proof/Tests/Slice0.lean ====
section
/-! SUPPORT. Tests on single steps, with words and results taken from spec/30_encoding.md section 7 and
spec/95_test_vectors.md (the vector named in each comment), and a witness for the hypotheses of each statement. -/

namespace Sys2Proof.Tests

-- One test after the other: many kernel evaluations at once would take more threads than the sandbox has memory for.
set_option Elab.async false

open Sys2Proof.Machine

/-! ## Helpers -/

/-- A ready block with this content, on a chain of `M = N` registers whose shift stage holds `sh`. -/
def block (content : List Byte) (sh : Nat := 0) : State :=
  { State.reset with
    cfg := { State.reset.cfg with n := BitVec.ofNat 8 content.length }
    buf := Memory.writeBytes [] 0 content
    chain := ⟨content.length, sh, 0⟩ }

/-- A state that one command word and its payload are sent to. -/
def sent (s : State) (w : BitVec 64) (pay : List Byte) : State :=
  { s with port := bytesOfWord w ++ pay }

/-- What a test looks at after one step. -/
structure Seen where
  status : Status
  data : BitVec 16
  out : List Byte
  content : List Byte
  left : List Byte
deriving DecidableEq, Repr

/-- One step, and what it leaves: the response, the content of `BUF`, the bytes left on the port. -/
def see (s : State) (w : BitVec 64) (pay : List Byte := []) : Option Seen :=
  match step (sent s w pay) with
  | .next t => some ⟨t.resp.status, t.resp.data, t.resp.out, t.buf.readBytes 0 t.cfg.count, t.port⟩
  | .fault _ => none
  | .refused _ => none

/-- The levels after one step, the events it appends, and the chain. -/
def lines (s : State) (w : BitVec 64) : Option (List (Option Level) × List Event × Chain) :=
  match step (sent s w []) with
  | .next t => some ([t.lvData, t.lvClk, t.lvLatch], t.trace.drop s.trace.length, t.chain)
  | .fault _ => none
  | .refused _ => none

/-- The events that send these bits on the pins of `block`, the latch around them. -/
def frameOfBits (bits : List Bool) : List Event :=
  [.drive ⟨2⟩ false] ++
    (bits.map fun b => [Event.drive ⟨1⟩ false, .drive ⟨0⟩ b, .delay 10, .drive ⟨1⟩ true]).flatten ++
    [.drive ⟨2⟩ true]

/-- A buffer of `n` bytes 0x00. -/
def zeros (n : Nat) : List Byte := List.replicate n 0x00#8

/-- A braced byte list as assembly text; 123 and 125 are the braces. -/
def braced (text : List Char) : List Char := [Char.ofNat 123] ++ text ++ [Char.ofNat 125]

/-! ## Well-formedness: a term that each check refuses -/

theorem test_wellFormed_mset_256 : (Instr.mset (some (zeros 256))).wellFormed = false := by decide +kernel
theorem test_wellFormed_mreset_256 : (Instr.mreset (some (zeros 256))).wellFormed = false := by decide +kernel
theorem test_wellFormed_mtoggle_256 : (Instr.mtoggle (some (zeros 256))).wellFormed = false := by decide +kernel
theorem test_wellFormed_overwrite_256 : (Instr.overwrite (some (zeros 256))).wellFormed = false := by decide +kernel
theorem test_wellFormed_mstamp_256 : (Instr.mstamp (some (zeros 256, zeros 256))).wellFormed = false := by decide +kernel
theorem test_wellFormed_mstamp_lengths : (Instr.mstamp (some (zeros 2, zeros 3))).wellFormed = false := by decide
theorem test_wellFormed_255 : (Instr.mset (some (zeros 255))).wellFormed = true := by decide +kernel

/-! ## Decoding: words of the spec -/

/-- 30_encoding.md section 7: GET 15, SET 15 1, TOGGLE 0, FILL 0xFF. -/
theorem test_decode_pin_words :
    decodeTableWord 64 0x01000F0000000000 = some (.get 15#16) ∧
    decodeTableWord 64 0x02000F0000000001 = some (.set 15#16 true) ∧
    decodeTableWord 64 0x0300000000000000 = some (.toggle 0#16) ∧
    decodeTableWord 64 0x04000000000000FF = some (.fill 0xFF#8) := by decide +kernel

/-- V-M2, V-M3, V-M5, V-O1: the payload is the buffer, byte 0 first. -/
theorem test_decode_buffer_words :
    decode (bytesOfWord 0x0500000002010000#64 ++ [0x00#8, 0x80#8]) = .command (.mset (some [0x00#8, 0x80#8])) [] ∧
    decode (bytesOfWord 0x0600000002010000#64 ++ [0xFF#8, 0xFF#8]) = .command (.mreset (some [0xFF#8, 0xFF#8])) [] ∧
    decode (bytesOfWord 0x0700000002010000#64 ++ [0x0F#8, 0xF0#8]) = .command (.mtoggle (some [0x0F#8, 0xF0#8])) [] ∧
    decode (bytesOfWord 0x0A00000002010000#64 ++ [0x12#8, 0x34#8]) = .command (.overwrite (some [0x12#8, 0x34#8])) [] := by
  decide +kernel

/-- V-S1: MASK first, then VAL. V-M4, V-O2, V-S3: an absent buffer. -/
theorem test_decode_mstamp_and_absent :
    decode (bytesOfWord 0x0B00000002010000#64 ++ [0xF0#8, 0x0F#8, 0x33#8, 0xAA#8]) =
      .command (.mstamp (some ([0xF0#8, 0x0F#8], [0x33#8, 0xAA#8]))) [] ∧
    decodeTableWord 64 0x0500000000000000 = some (.mset none) ∧
    decodeTableWord 64 0x0A00000000000000 = some (.overwrite none) ∧
    decodeTableWord 64 0x0B00000000000000 = some (.mstamp none) := by decide +kernel

/-- V-G7, P3 step 1, V-R1, P1 step 2. -/
theorem test_decode_segment_and_bare_words :
    decodeTableWord 64 0x08FFFF0200000000 = some (.rdseg 0xFFFF#16 2#8) ∧
    decodeTableWord 64 0x090006040000FFFA = some (.wrseg 6#16 4#8 0xFFFA#16) ∧
    decodeTableWord 64 0x0C00000000000000 = some .readbuf ∧
    decodeTableWord 64 0x1000000000000000 = some .transmit := by decide +kernel

/-- V-D1, V-D2, V-D3: reserved opcodes. V-D4 to V-D6, V-B10, V-F3: a field that must be 0. V-M8: `A = 0` with `L = 2`. -/
theorem test_decode_illegal_words :
    decode (bytesOfWord 0x0000000000000000#64) = .illegal .reservedOpcode [] ∧
    decode (bytesOfWord 0xFF00000000000000#64) = .illegal .reservedOpcode [] ∧
    decode (bytesOfWord 0x0D00000000000000#64) = .illegal .reservedOpcode [] ∧
    decode (bytesOfWord 0x0100000100000000#64) = .illegal .unusedField [] ∧
    decode (bytesOfWord 0x0400000000020000#64) = .illegal .unusedField [] ∧
    decode (bytesOfWord 0x1000000000000001#64) = .illegal .unusedField [] ∧
    decode (bytesOfWord 0x0200000000000002#64) = .illegal .unusedField [] ∧
    decode (bytesOfWord 0x0400000000000100#64) = .illegal .unusedField [] ∧
    decode (bytesOfWord 0x0500000002000000#64) = .illegal .lengthWithoutBuffer [] := by decide +kernel

/-- R75: 7 bytes are no word, and MSTAMP with `L = 2` takes 4 payload bytes. -/
theorem test_decode_short :
    decode ((bytesOfWord 0x1000000000000000#64).take 7) = .shortWord ∧
    decode (bytesOfWord 0x0B00000002010000#64 ++ [0xF0#8, 0x0F#8, 0x33#8]) = .shortPayload := by decide +kernel

/-- The encoder writes the words of V-S1 and of P3 step 1. -/
theorem test_encode :
    encode (.mstamp (some ([0xF0#8, 0x0F#8], [0x33#8, 0xAA#8]))) =
      [0x0B#8, 0, 0, 0, 0x02#8, 0x01#8, 0, 0, 0xF0#8, 0x0F#8, 0x33#8, 0xAA#8] ∧
    encode (.wrseg 6#16 4#8 0xFFFA#16) = [0x09#8, 0x00#8, 0x06#8, 0x04#8, 0, 0, 0xFF#8, 0xFA#8] := by decide +kernel

/-! ## One step per vector -/

/-- V-B2: pin 15 is bit 7 of byte 1. -/
theorem test_get_maxbit :
    see (block [0x01#8, 0x80#8]) 0x01000F0000000000#64 = some ⟨.ok, 1#16, [], [0x01#8, 0x80#8], []⟩ := by decide +kernel

/-- V-B3. -/
theorem test_get_out_of_range :
    see (block [0x01#8, 0x80#8]) 0x0100100000000000#64 = some ⟨.pinOutOfRange, 0#16, [], [0x01#8, 0x80#8], []⟩ := by
  decide +kernel

/-- V-B7. -/
theorem test_set_clears :
    see (block [0xFF#8]) 0x0200070000000000#64 = some ⟨.ok, 0#16, [], [0x7F#8], []⟩ := by decide +kernel

/-- V-B10. -/
theorem test_set_illegal_value :
    see (block [0x00#8]) 0x0200000000000002#64 = some ⟨.illegalCommand, 0#16, [], [0x00#8], []⟩ := by decide +kernel

/-- V-B12. -/
theorem test_toggle_second_byte :
    see (block [0x00#8, 0x00#8]) 0x0300080000000000#64 = some ⟨.ok, 0#16, [], [0x00#8, 0x01#8], []⟩ := by decide +kernel

/-- V-B13. -/
theorem test_toggle_out_of_range :
    see (block [0x00#8, 0x00#8]) 0x0300100000000000#64 = some ⟨.pinOutOfRange, 0#16, [], [0x00#8, 0x00#8], []⟩ := by
  decide +kernel

/-- V-F1. -/
theorem test_fill :
    see (block (zeros 3)) 0x04000000000000A5#64 = some ⟨.ok, 0#16, [], [0xA5#8, 0xA5#8, 0xA5#8], []⟩ := by decide +kernel

/-- V-M5: pin MAXBIT is reached. -/
theorem test_mset_maxbit :
    see (block (zeros 2)) 0x0500000002010000#64 [0x00#8, 0x80#8] = some ⟨.ok, 0#16, [], [0x00#8, 0x80#8], []⟩ := by
  decide +kernel

/-- V-M7: the payload byte is consumed. -/
theorem test_mset_short_mask :
    see (block (zeros 2)) 0x0500000001010000#64 [0xFF#8] = some ⟨.lengthMismatch, 0#16, [], [0x00#8, 0x00#8], []⟩ := by
  decide +kernel

/-- P2 step 3. -/
theorem test_mreset :
    see (block [0xF3#8]) 0x0600000001010000#64 [0x30#8] = some ⟨.ok, 0#16, [], [0xC3#8], []⟩ := by decide +kernel

/-- V-M3. -/
theorem test_mtoggle :
    see (block [0xFF#8, 0x00#8]) 0x0700000002010000#64 [0x0F#8, 0xF0#8] =
      some ⟨.ok, 0#16, [], [0xF0#8, 0xF0#8], []⟩ := by decide +kernel

/-- V-O1. -/
theorem test_overwrite :
    see (block (zeros 2)) 0x0A00000002010000#64 [0x12#8, 0x34#8] = some ⟨.ok, 0#16, [], [0x12#8, 0x34#8], []⟩ := by
  decide +kernel

/-- V-O2. -/
theorem test_overwrite_absent :
    see (block [0x05#8, 0x06#8]) 0x0A00000000000000#64 = some ⟨.nullOrMissingBuffer, 0#16, [], [0x05#8, 0x06#8], []⟩ := by
  decide +kernel

/-- V-S1. -/
theorem test_mstamp :
    see (block [0x5A#8, 0xC3#8]) 0x0B00000002010000#64 [0xF0#8, 0x0F#8, 0x33#8, 0xAA#8] =
      some ⟨.ok, 0#16, [], [0x3A#8, 0xCA#8], []⟩ := by decide +kernel

/-- V-S4: the value bit at the pin's own index. -/
theorem test_mstamp_own_index :
    see (block [0x00#8]) 0x0B00000001010000#64 [0xFF#8, 0x5A#8] = some ⟨.ok, 0#16, [], [0x5A#8], []⟩ := by decide +kernel

/-- V-R1. -/
theorem test_readbuf :
    see (block [0x3A#8, 0xCA#8]) 0x0C00000000000000#64 =
      some ⟨.ok, 0#16, [0x3A#8, 0xCA#8], [0x3A#8, 0xCA#8], []⟩ := by decide +kernel

/-- V-G2: three bytes. -/
theorem test_rdseg_three_bytes :
    see (block [0x80#8, 0xFF#8, 0x01#8]) 0x0800071000000000#64 =
      some ⟨.ok, 0x03FF#16, [], [0x80#8, 0xFF#8, 0x01#8], []⟩ := by decide +kernel

/-- V-G7: no wrap. -/
theorem test_rdseg_no_wrap :
    see (block (zeros 2)) 0x08FFFF0200000000#64 = some ⟨.pinOutOfRange, 0#16, [], [0x00#8, 0x00#8], []⟩ := by
  decide +kernel

/-- V-G12: the value's high bits are ignored. -/
theorem test_wrseg_low_bits :
    see (block [0xFF#8, 0xFF#8]) 0x090004040000FFF0#64 = some ⟨.ok, 0#16, [], [0x0F#8, 0xFF#8], []⟩ := by decide +kernel

/-- V-G11. -/
theorem test_wrseg_past_the_end :
    see (block (zeros 2)) 0x09000F0200000003#64 = some ⟨.pinOutOfRange, 0#16, [], [0x00#8, 0x00#8], []⟩ := by
  decide +kernel

/-- V-T3: the frame, the idle levels, and the chain that shows 0xA5. -/
theorem test_transmit :
    lines (block [0xA5#8] 0x3C) 0x1000000000000000#64 =
      some ([some true, some true, some true],
        frameOfBits [true, false, true, false, false, true, false, true], ⟨1, 0xA5, 0xA5⟩) := by decide +kernel

/-- V-C1: a chain longer than the buffer. -/
theorem test_transmit_longer_chain :
    ((lines { block [0x34#8, 0x12#8] with chain := ⟨3, 0xCCBBAA, 0⟩ } 0x1000000000000000#64).map fun r => r.2.2) =
      some ⟨3, 0xAA1234, 0xAA1234⟩ := by decide +kernel

/-- V-D7: IllegalCommand wins over the range check. -/
theorem test_illegal_wins :
    see (block [0x00#8]) 0x01FFFF0100000000#64 = some ⟨.illegalCommand, 0#16, [], [0x00#8], []⟩ := by decide +kernel

/-- V-D6: no frame is sent. -/
theorem test_illegal_transmit :
    lines (block [0xA5#8]) 0x1000000000000001#64 =
      some ([some false, some true, some true], [], ⟨1, 0, 0⟩) := by decide +kernel

/-- The first step from reset with a table row's word placed runs that command (P1 step 1). -/
theorem test_reset_runs_a_table_word :
    (match step (State.reset.withFetchWord 64 0x02000F0000000001) with
      | .next t => t.buf == [(1, 0x80#8)] && t.resp.status == .ok
      | .fault _ => false
      | .refused _ => false) = true := by decide +kernel

/-- P2's construction: 3 Configure calls and the seed's frame; the chain shows the seed. -/
theorem test_construct_seed :
    (match construct ⟨1, ⟨0⟩, ⟨1⟩, ⟨2⟩, some [0xFF#8], none⟩ (State.unbuilt none ⟨1, 0, 0⟩) with
      | .next t => t.trace == [.configure ⟨0⟩, .configure ⟨1⟩, .configure ⟨2⟩] ++ frameOfBits (List.replicate 8 true) &&
          t.buf.readBytes 0 1 == [0xFF#8] && t.lvData == some true && t.cfg.tHold == 10
      | .fault _ => false
      | .refused _ => false) = true := by decide +kernel

/-- R261: no registers, 256 registers, two equal pins, a seed of the wrong length. -/
theorem test_construct_refused :
    (∀ n ∈ [0, 256], constructLegal ⟨n, ⟨0⟩, ⟨1⟩, ⟨2⟩, none, none⟩ = false) ∧
    constructLegal ⟨1, ⟨0⟩, ⟨1⟩, ⟨1⟩, none, none⟩ = false ∧
    constructLegal ⟨1, ⟨0⟩, ⟨0⟩, ⟨2⟩, none, none⟩ = false ∧
    constructLegal ⟨1, ⟨2⟩, ⟨1⟩, ⟨2⟩, none, none⟩ = false ∧
    constructLegal ⟨2, ⟨0⟩, ⟨1⟩, ⟨2⟩, some [0xFF#8], none⟩ = false ∧
    constructLegal ⟨255, ⟨0⟩, ⟨1⟩, ⟨2⟩, none, some 0⟩ = true := by decide +kernel

/-! ## The assembly notation -/

/-- P4 step 1, P2 step 1, P2 step 4 as text. -/
theorem test_assemble_text :
    assembleText 2 ("WRSEG 4, 4, 0b1010 ; E8").toList = some [.wrseg 4#16 4#8 0b1010#16] ∧
    assembleText 1 (("MTOGGLE ").toList ++ braced ("0x0F").toList) = some [.mtoggle (some [0x0F#8])] ∧
    assembleText 1 ("MSET -").toList = some [.mset none] := by decide +kernel

/-- R83: TOGGLEALL for two registers, and a port write with its TRANSMIT. R84: an operand too wide for its field. -/
theorem test_assemble_pseudo :
    assembleText 2 ("TOGGLEALL").toList = some [.mtoggle (some [0xFF#8, 0xFF#8])] ∧
    assembleText 2 ("WRPORT 4, 4, 10").toList = some [.wrseg 4#16 4#8 10#16, .transmit] ∧
    assembleText 2 ("FILL 256").toList = none ∧
    assembleText 2 ("GET 65536").toList = none ∧
    assembleText 2 ("GET 65535").toList = some [.get 0xFFFF#16] := by decide +kernel

/-! ## Witnesses: concrete states and operands that meet the hypotheses of each statement -/

/-- An illegal word of an opcode: the hypotheses of `Claims.IllegalOutside`. -/
def IllegalWitness (op : BitVec 8) (unused w : BitVec 64) (pay : List Byte) : Prop :=
  w.extractLsb' 56 8 = op ∧ w &&& unused ≠ 0#64 ∧ pay.length = Claims.payloadBytes w

theorem witness_DecodeOfEncodeIsTheCommand :
    (Instr.mstamp (some (zeros 255, zeros 255))).wellFormed = true ∧ (Instr.overwrite (some [])).wellFormed = true := by
  decide +kernel

theorem witness_DecodedBytesAreTheEncoding :
    decode (bytesOfWord 0x0900000100000001#64 ++ [0x10#8]) = .command (.wrseg 0#16 1#8 1#16) [0x10#8] := by decide +kernel

theorem witness_LegalWordsAreTheOpcodeTable :
    (zeros 510).length = Claims.payloadBytes 0x0B000000FF010000#64 ∧ Claims.WordLegal 0x0B000000FF010000#64 ∧
    ([] : List Byte).length = Claims.payloadBytes 0x0500000002000000#64 ∧ ¬ Claims.WordLegal 0x0500000002000000#64 ∧
    (zeros 2).length = Claims.payloadBytes 0x0500000102010000#64 ∧ ¬ Claims.WordLegal 0x0500000102010000#64 := by
  unfold Claims.WordLegal; decide +kernel

theorem witness_CommandLengthComesFromTheWord :
    (zeros 510).length = Claims.payloadBytes 0x0B000000FF010000#64 ∧
    (zeros 509).length < Claims.payloadBytes 0x0B000000FF010000#64 := by decide +kernel

theorem witness_StepRunsTheDecodedCommand :
    (sent State.reset 0x04000000000000A5#64 [0x10#8]).phase = .ready ∧
    decode (sent State.reset 0x04000000000000A5#64 [0x10#8]).port = .command (.fill 0xA5#8) [0x10#8] := by decide +kernel

theorem witness_EncodedCommandRunsInOneStep :
    (sent State.reset 0x0600000001010000#64 [0xFF#8, 0x10#8]).phase = .ready ∧
    (Instr.mreset (some [0xFF#8])).wellFormed = true ∧
    (sent State.reset 0x0600000001010000#64 [0xFF#8, 0x10#8]).port = encode (.mreset (some [0xFF#8])) ++ [0x10#8] := by
  decide +kernel

/-- An illegal MSET whose two payload bytes are consumed, and a legal word. -/
theorem witness_IllegalWordAnswersIllegalCommand :
    ¬ Claims.WordLegal 0x0500000102010000#64 ∧ (zeros 2).length = Claims.payloadBytes 0x0500000102010000#64 ∧
    (sent State.reset 0x0500000102010000#64 (zeros 2 ++ [0x10#8])).port =
      bytesOfWord 0x0500000102010000#64 ++ zeros 2 ++ [0x10#8] ∧
    Claims.WordLegal 0x1000000000000000#64 ∧ ([] : List Byte).length = Claims.payloadBytes 0x1000000000000000#64 ∧
    (sent State.reset 0x1000000000000000#64 []).port = bytesOfWord 0x1000000000000000#64 ++ [] ++ [] := by
  unfold Claims.WordLegal; decide +kernel

theorem witness_ShortCommandLeavesTheBlockWaiting :
    { State.reset with port := zeros 7 }.port.length < 8 ∧
    (sent State.reset 0x0500000001010000#64 []).port = bytesOfWord 0x0500000001010000#64 ++ [] ∧
    ([] : List Byte).length < Claims.payloadBytes 0x0500000001010000#64 := by decide +kernel

theorem witness_UnbuiltBlockOnlyConstructs :
    (State.unbuilt none ⟨2, 0, 0⟩).phase = .unbuilt ∧ (State.unbuilt none ⟨2, 0, 0⟩).request = none ∧
    (State.unbuilt (some resetParams) ⟨2, 0, 0⟩).request = some resetParams := by decide

/-- `N = 255` with a seed, on a chain of `M = N`; `N = 1` without one. -/
theorem witness_ConstructionEstablishesTheResetTable :
    (∀ b, (some (zeros 255)) = some b → b.length = 255) ∧ (State.unbuilt none ⟨255, 0, 0⟩).chain.m = 255 ∧
    (⟨0⟩ : PinId) ≠ ⟨1⟩ ∧ (⟨0⟩ : PinId) ≠ ⟨2⟩ ∧ (⟨1⟩ : PinId) ≠ ⟨2⟩ ∧
    (∀ b, (none : Option (List Byte)) = some b → b.length = 1) := by
  refine ⟨fun b h => by cases h; decide +kernel, rfl, by decide, by decide, by decide, nofun⟩

/-- `MAXBIT` and `MAXBIT + 1`, and an illegal word. -/
theorem witness_GetReturnsThePin :
    (15#16).toNat ≤ State.reset.cfg.maxBit ∧ State.reset.cfg.maxBit < (16#16).toNat ∧
    IllegalWitness 0x01 0x000000FFFFFFFFFF 0x0100000000000001 [] := by unfold IllegalWitness; decide +kernel

theorem witness_SetWritesOnePin :
    (15#16).toNat ≤ State.reset.cfg.maxBit ∧ State.reset.cfg.maxBit < (16#16).toNat ∧
    IllegalWitness 0x02 0x000000FFFFFFFFFE 0x0200000000000002 [] := by unfold IllegalWitness; decide +kernel

theorem witness_ToggleInvertsOnePin :
    (0#16).toNat ≤ State.reset.cfg.maxBit ∧ State.reset.cfg.maxBit < (0xFFFF#16).toNat ∧
    IllegalWitness 0x03 0x000000FFFFFFFFFF 0x0300008000000000 [] := by unfold IllegalWitness; decide +kernel

theorem witness_SetThenGetReturnsTheBit : (15#16).toNat ≤ State.reset.cfg.maxBit := by decide

theorem witness_FailingPinCommandHasNoSideEffect : State.reset.cfg.maxBit < (16#16).toNat := by decide

theorem witness_FillSetsEveryByte :
    1 < State.reset.cfg.count ∧ State.reset.cfg.count ≤ 2 ∧
    IllegalWitness 0x04 0x00FFFFFFFFFFFF00 0x0400000000000100 [] := by unfold IllegalWitness; decide +kernel

theorem witness_FillThenGetReturnsTheFill :
    1 ≤ State.reset.cfg.count ∧ (15#16).toNat ≤ State.reset.cfg.maxBit := by decide

/-- A mask of `N` bytes and one of `N + 1`, a buffer of 255 bytes, and an illegal word with a payload. -/
theorem witness_MsetSetsTheSelectedPins :
    (zeros 2).length = State.reset.cfg.count ∧ (zeros 3).length ≠ State.reset.cfg.count ∧ (zeros 255).length < 256 ∧
    IllegalWitness 0x05 0x00FFFFFF00FEFFFF 0x0500000001010001 [0xFF] := by unfold IllegalWitness; decide +kernel

theorem witness_MresetClearsTheSelectedPins :
    (zeros 2).length = State.reset.cfg.count ∧ (zeros 0).length ≠ State.reset.cfg.count ∧ (zeros 255).length < 256 ∧
    IllegalWitness 0x06 0x00FFFFFF00FEFFFF 0x0600000001030000 [0xFF] := by unfold IllegalWitness; decide +kernel

theorem witness_MtoggleInvertsTheSelectedPins :
    (zeros 2).length = State.reset.cfg.count ∧ (zeros 1).length ≠ State.reset.cfg.count ∧ (zeros 255).length < 256 ∧
    IllegalWitness 0x07 0x00FFFFFF00FEFFFF 0x0700000100000000 [] := by unfold IllegalWitness; decide +kernel

theorem witness_OverwriteReplacesTheBuffer :
    (zeros 2).length = State.reset.cfg.count ∧ (zeros 3).length ≠ State.reset.cfg.count ∧ (zeros 255).length < 256 ∧
    IllegalWitness 0x0A 0x00FFFFFF00FEFFFF 0x0A00010000000000 [] := by unfold IllegalWitness; decide +kernel

theorem witness_MstampCopiesTheSelectedPins :
    (zeros 2).length = State.reset.cfg.count ∧ (zeros 3).length ≠ State.reset.cfg.count ∧ (zeros 255).length < 256 ∧
    IllegalWitness 0x0B 0x00FFFFFF00FEFFFF 0x0B00000001010001 [0xFF, 0x00] := by unfold IllegalWitness; decide +kernel

theorem witness_ReadbufReturnsTheBuffer :
    1 < State.reset.cfg.count ∧ IllegalWitness 0x0C 0x00FFFFFFFFFFFFFF 0x0C00000000010000 [] := by
  unfold IllegalWitness; decide +kernel

theorem witness_PayloadErrorsLeaveTheBuffer :
    (zeros 3).length ≠ State.reset.cfg.count ∧ (zeros 3).length = (zeros 3).length := by decide

theorem witness_MsetThenMresetClearsTheSelected : [0xFF#8, 0x81#8].length = State.reset.cfg.count := by decide

theorem witness_MaskLawsOfWholeBuffers :
    (block [0x5A#8, 0xC3#8]).buf.wf = true ∧ [0xFF#8, 0x81#8].length = (block [0x5A#8, 0xC3#8]).cfg.count := by decide

/-- Each command of the three clauses completes twice. -/
theorem witness_RepeatingACommand :
    (block [0x5A#8, 0xC3#8]).buf.wf = true ∧
    (∀ i ∈ [Instr.set 15#16 true, .fill 0xA5#8, .mset (some (zeros 2)), .mreset none, .mstamp (some (zeros 2, zeros 2)),
        .wrseg 0#16 16#8 0xBEEF#16, .overwrite (some (zeros 2)), .toggle 15#16, .mtoggle (some (zeros 2)), .transmit],
      ∃ t u, exec i (block [0x5A#8, 0xC3#8]) = .next t ∧ exec i t = .next u) ∧
    (block [0x5A#8, 0xC3#8]).chain.m = (block [0x5A#8, 0xC3#8]).cfg.count := by
  refine ⟨by decide, fun i hi => ?_, by decide⟩
  fin_cases hi <;> exact ⟨_, _, rfl, rfl⟩

/-- Segments of 1 and of 16 pins that end at `MAXBIT`; 0 pins, 17 pins, and one pin past the end. -/
theorem witness_RdsegReturnsTheSegment :
    (1 ≤ (16#8).toNat ∧ (16#8).toNat ≤ 16 ∧ (0#16).toNat + (16#8).toNat - 1 ≤ State.reset.cfg.maxBit) ∧
    (1 ≤ (1#8).toNat ∧ (1#8).toNat ≤ 16 ∧ (15#16).toNat + (1#8).toNat - 1 ≤ State.reset.cfg.maxBit) ∧
    (0#8).toNat < 1 ∧ 16 < (17#8).toNat ∧ State.reset.cfg.maxBit < (15#16).toNat + (2#8).toNat - 1 ∧
    IllegalWitness 0x08 0x00000000FFFFFFFF 0x0800000100000001 [] := by unfold IllegalWitness; decide +kernel

theorem witness_WrsegWritesTheSegment :
    (1 ≤ (16#8).toNat ∧ (16#8).toNat ≤ 16 ∧ (0#16).toNat + (16#8).toNat - 1 ≤ State.reset.cfg.maxBit) ∧
    (1 ≤ (1#8).toNat ∧ (1#8).toNat ≤ 16 ∧ (15#16).toNat + (1#8).toNat - 1 ≤ State.reset.cfg.maxBit) ∧
    (0#8).toNat < 1 ∧ 16 < (17#8).toNat ∧ State.reset.cfg.maxBit < (15#16).toNat + (2#8).toNat - 1 ∧
    IllegalWitness 0x09 0x00000000FFFF0000 0x0900000100010000 [] := by unfold IllegalWitness; decide +kernel

theorem witness_WrsegThenRdsegReturnsTheLowBits :
    1 ≤ (16#8).toNat ∧ (16#8).toNat ≤ 16 ∧ (0#16).toNat + (16#8).toNat - 1 ≤ State.reset.cfg.maxBit := by decide

theorem witness_TransmitSendsTheFrame :
    1 ≤ State.reset.cfg.count ∧ IllegalWitness 0x10 0x00FFFFFFFFFFFFFF 0x1000000000000001 [] := by
  unfold IllegalWitness; decide +kernel

theorem witness_FrameEventsByIndex : 1 ≤ 8 * State.reset.cfg.count ∧ 16 ≤ 8 * State.reset.cfg.count := by decide

theorem witness_TransmitLeavesTheIdleLevels : 1 ≤ State.reset.cfg.count := by decide

/-- The calls of the reset state's frame at which each clause speaks: 2, 4, 64 and the last, 65. -/
theorem witness_DataChangesOnlyWhileTheClockIsLow :
    (Claims.frameOf State.reset)[2]? = some (.drive .data false) ∧
    (Claims.frameOf State.reset)[4]? = some (.drive .clk true) ∧
    64 < (Claims.frameOf State.reset).length ∧ 65 + 1 = (Claims.frameOf State.reset).length := by decide +kernel

theorem witness_FrameShiftsTheBufferIntoTheChain : 1 ≤ State.reset.cfg.count := by decide

/-- A chain longer than the buffer has registers in every clause. -/
theorem witness_RegistersAfterAFrame :
    1 ≤ State.reset.cfg.count ∧ 1 < min { State.reset with chain := ⟨3, 0, 0⟩ }.chain.m State.reset.cfg.count ∧
    State.reset.cfg.count ≤ 2 ∧ 2 < { State.reset with chain := ⟨3, 0, 0⟩ }.chain.m ∧
    { State.reset with chain := ⟨3, 0, 0⟩ }.chain.m ≤ 3 := by decide

theorem witness_ChainShowsTheBufferAfterTransmit :
    1 ≤ State.reset.cfg.count ∧ State.reset.chain.m = State.reset.cfg.count := by decide

theorem witness_OutputsHoldUntilTheLatchEdge : 65 < (Claims.frameOf State.reset).length := by decide +kernel

theorem witness_RisingEdgesShiftAndLatchTheChain :
    (State.reset.setLevel .clk false).lvClk = some false ∧ (State.reset.setLevel .clk false).lvData = some false ∧
    (State.reset.setLevel .latch false).lvLatch = some false := by decide

/-- Each clock high, and not driven. -/
theorem witness_OnlyRisingEdgesChangeTheChain :
    State.reset.lvClk = some true ∧ (State.unbuilt none ⟨2, 0, 0⟩).lvClk = none ∧
    State.reset.lvLatch = some true ∧ (State.unbuilt none ⟨2, 0, 0⟩).lvLatch = none := by decide

/-- A failing command, alone and in a step. -/
theorem witness_FailureHasNoOtherEffect :
    (∃ t, exec (.get 16#16) State.reset = .next t ∧ t.resp.status ≠ .ok) ∧
    (sent State.reset 0xFF00000000000000#64 []).phase = .ready ∧
    (∃ t, step (sent State.reset 0xFF00000000000000#64 []) = .next t ∧ t.resp.status ≠ .ok) :=
  ⟨⟨_, rfl, by decide⟩, rfl, ⟨_, rfl, by decide⟩⟩

/-- Each status but `IllegalCommand` is some command's. -/
theorem witness_StatusesEachCommandRaises :
    (∃ t, exec (.get 16#16) State.reset = .next t ∧ t.resp.status = .pinOutOfRange) ∧
    (∃ t, exec (.mset none) State.reset = .next t ∧ t.resp.status = .nullOrMissingBuffer) ∧
    (∃ t, exec (.overwrite (some [])) State.reset = .next t ∧ t.resp.status = .lengthMismatch) :=
  ⟨⟨_, rfl, rfl⟩, ⟨_, rfl, rfl⟩, ⟨_, rfl, rfl⟩⟩

theorem witness_OnlyTransmitReachesTheLines :
    (∃ t, exec (.fill 0xFF#8) State.reset = .next t) ∧ Instr.fill 0xFF#8 ≠ .transmit ∧
    (∃ t, exec .transmit State.reset = .next t) ∧ (∃ t, exec .readbuf State.reset = .next t) :=
  ⟨⟨_, rfl⟩, nofun, ⟨_, rfl⟩, ⟨_, rfl⟩⟩

theorem witness_ConfigurationNeverChanges :
    (sent State.reset 0x1000000000000000#64 []).phase = .ready ∧
    ∃ t, step (sent State.reset 0x1000000000000000#64 []) = .next t := ⟨rfl, _, rfl⟩

theorem witness_TraceIsAppendOnly :
    (sent State.reset 0x1000000000000000#64 []).phase = .ready ∧
    ∃ t, step (sent State.reset 0x1000000000000000#64 []) = .next t := ⟨rfl, _, rfl⟩

theorem witness_OneResponsePerCommand :
    (sent State.reset 0x0C00000000000000#64 []).phase = .ready ∧
    ∃ t, step (sent State.reset 0x0C00000000000000#64 []) = .next t := ⟨rfl, _, rfl⟩

/-- A ready block with a FILL to run meets the invariant and steps, and so does an unbuilt one with a construction to run. -/
theorem witness_StepKeepsTheInvariant :
    ((sent State.reset 0x04000000000000FF#64 []).Inv ∧
      ∃ t, step (sent State.reset 0x04000000000000FF#64 []) = .next t) ∧
    ((State.unbuilt (some resetParams) ⟨2, 0, 0⟩).Inv ∧
      ∃ t, step (State.unbuilt (some resetParams) ⟨2, 0, 0⟩) = .next t) := by
  refine ⟨⟨fun _ => ⟨?_, ⟨rfl, fun a _ => rfl⟩, ?_, ⟨by decide, by decide⟩, fun h => absurd rfl h⟩, _, rfl⟩, nofun, _, rfl⟩
  · unfold Cfg.Legal; decide
  · unfold State.LineInv; decide

/-- Commands that assemble and one that does not. -/
theorem witness_AssemblerRejectsWhatDoesNotFit :
    (AsmCommand.mstamp (some [255, 0]) (some [1, 2])).assemble =
      some (.mstamp (some ([0xFF#8, 0x00#8], [0x01#8, 0x02#8]))) ∧
    (AsmCommand.mset (some [256])).assemble = none ∧ (16 : Nat) < 65536 ∧ State.reset.cfg.maxBit < 16 := by decide

end Sys2Proof.Tests
end

/-! PROOF. What is fixed at construction: `CFG` and `PHASE` (R11, R27), and the chain's number of registers, which is the
environment's (R10). -/

namespace Sys2Proof.Machine

/-! ## The chain's length under the PinDriver's calls -/

/-- An edge shifts, latches or leaves the chain. -/
@[simp] theorem State.chainAfter_m (s : State) (line : Line) (level : Level) :
    (s.chainAfter line level).m = s.chain.m := by
  cases line <;> cases level <;> simp only [State.chainAfter]
  case clk.true => split <;> rfl
  case latch.true => split <;> rfl

@[simp] theorem State.perform_chain_m (s : State) (c : PinCall) : (s.perform c).chain.m = s.chain.m := by
  cases c <;> simp [State.perform]

@[simp] theorem State.runCalls_chain_m (s : State) (cs : List PinCall) : (s.runCalls cs).chain.m = s.chain.m := by
  induction cs generalizing s with
  | nil => rfl
  | cons c cs ih => rw [State.runCalls_cons, ih, State.perform_chain_m]

/-! ## TRANSMIT, any command, any step -/

theorem State.transmit_keeps_configuration (s : State) :
    s.transmit.cfg = s.cfg ∧ s.transmit.phase = s.phase ∧ s.transmit.chain.m = s.chain.m := by
  obtain ⟨hphase, hcfg, -⟩ := s.runCalls_keeps (frameCalls (s.buf.readBytes 0 s.cfg.count) s.cfg.count)
  exact ⟨hcfg, hphase, s.runCalls_chain_m _⟩

theorem exec_keeps_configuration {i : Instr} {s t : State} (h : exec i s = .next t) :
    t.cfg = s.cfg ∧ t.phase = s.phase ∧ t.chain.m = s.chain.m := by
  rcases exec_next h with ⟨e, -, rfl⟩ | ⟨-, ht, -⟩ | ⟨-, rfl⟩
  · exact ⟨rfl, rfl, rfl⟩
  · rw [ht]; exact ⟨rfl, rfl, rfl⟩
  · exact s.transmit_keeps_configuration

/-- Settles O52: a ready block does not construct again, and no command, legal or illegal, writes these fields. -/
theorem configurationNeverChanges : Obligations.ConfigurationNeverChanges := by
  intro s t hready h
  rcases step_next h with ⟨p, hunbuilt, -⟩ | ⟨why, rest, -, -, rfl⟩ | ⟨i, rest, u, -, -, hexec, rfl⟩
  · rw [hready] at hunbuilt; cases hunbuilt
  · exact ⟨rfl, hready, rfl⟩
  · obtain ⟨hcfg, hphase, hm⟩ := exec_keeps_configuration hexec
    exact ⟨hcfg, hphase.trans hready, hm⟩

end Sys2Proof.Machine

/-! PROOF. What a whole frame does (R182 to R188): the pins in the order they are clocked out, the state after the frame
in one equation, and the number it shifts into the chain (R197). -/

namespace Sys2Proof.Machine

/-! ## The pins in the order of a frame -/

/-- The pins `k-1` down to 0: a frame of `n` bytes clocks out those of `k = 8*n` (R187). -/
def Memory.pinsDown (m : Memory) (k : Nat) : List Bool :=
  (List.range k).map fun j => m.readPin (k - (j + 1))

@[simp] theorem Memory.pinsDown_zero (m : Memory) : m.pinsDown 0 = [] := rfl

theorem Memory.pinsDown_succ (m : Memory) (k : Nat) : m.pinsDown (k + 1) = m.readPin k :: m.pinsDown k := by
  simp [Memory.pinsDown, List.range_succ_eq_map, Function.comp_def]

/-- Pin 0 goes last. -/
theorem Memory.getLast?_pinsDown (m : Memory) (k : Nat) :
    (m.pinsDown k).getLast? = if k = 0 then none else some (m.readPin 0) := by
  cases k with
  | zero => rfl
  | succ k => simp [Memory.pinsDown, List.range_succ]

theorem Memory.pinsDown_eq_nil {m : Memory} {k : Nat} : m.pinsDown k = [] ↔ k = 0 := by
  simp [Memory.pinsDown]

/-- A byte's slots carry its pins, highest first, before those of the bytes below it. -/
theorem byteSlots_pinsDown (m : Memory) (i : Nat) {j : Nat} (hj : j ≤ 8) :
    byteSlots (m.read i) j ++ (m.pinsDown (8 * i)).flatMap bitSlot = (m.pinsDown (8 * i + j)).flatMap bitSlot := by
  induction j with
  | zero => rfl
  | succ j ih =>
    have hrec : byteSlots (m.read i) (j + 1) = bitSlot ((m.read i).getLsbD j) ++ byteSlots (m.read i) j := rfl
    rw [hrec, List.append_assoc, ih (by omega), Memory.getLsbD_read m i (by omega), ← Nat.add_assoc,
      Memory.pinsDown_succ, List.flatMap_cons]

/-- The slots of a snapshot of `BUF` are those of its pins `8*N - 1` down to 0. -/
theorem bufferSlots_readBytes (m : Memory) {n i : Nat} (hi : i ≤ n) :
    bufferSlots (m.readBytes 0 n) i = (m.pinsDown (8 * i)).flatMap bitSlot := by
  induction i with
  | zero => rfl
  | succ i ih =>
    rw [bufferSlots, ih (by omega), Memory.getD_readBytes m 0 (by omega), Nat.zero_add,
      byteSlots_pinsDown m i (Nat.le_refl 8), Nat.mul_succ]

/-- The events of the slots, as R187 numbers them. -/
theorem map_event_slots (s : State) (k : Nat) :
    ((s.buf.pinsDown k).flatMap bitSlot).map (PinCall.event s.cfg) =
      (List.range k).flatMap fun j =>
        [.drive s.cfg.pinClk false, .drive s.cfg.pinData (s.buf.readPin (k - (j + 1))), .delay s.cfg.tHold,
          .drive s.cfg.pinClk true] := by
  simp [Memory.pinsDown, List.flatMap_map, List.map_flatMap, bitSlot, PinCall.event, Cfg.pin]

/-- The frame of R182 and R187 is what the calls of R184 append. -/
theorem frame_eq_map_event (s : State) : Claims.frame s = (Claims.frameOf s).map (PinCall.event s.cfg) := by
  rw [Claims.frameOf, frameCalls, bufferSlots_readBytes s.buf (Nat.le_refl s.cfg.count), List.map_append,
    List.map_append, map_event_slots]
  rfl

@[simp] theorem length_frameOf (s : State) : (Claims.frameOf s).length = 2 + 32 * s.cfg.count := by
  simp [Claims.frameOf, frameCalls, length_bufferSlots]
  omega

@[simp] theorem length_frame (s : State) : (Claims.frame s).length = 2 + 32 * s.cfg.count := by
  rw [frame_eq_map_event, List.length_map, length_frameOf]

/-! ## The state after a frame -/

/-- The slots of a list of bits: each is shifted into the chain, and the data line keeps the last. -/
theorem State.runCalls_slots (s : State) (bits : List Bool) :
    s.runCalls (bits.flatMap bitSlot) =
      { s with
        lvData := bits.getLast?.or s.lvData
        lvClk := if bits = [] then s.lvClk else some true
        chain := bits.foldl Chain.shift s.chain
        trace := s.trace ++ (bits.flatMap bitSlot).map (PinCall.event s.cfg) } := by
  induction bits using List.reverseRecOn with
  | nil => simp [State.runCalls_nil]
  | append_singleton bits b ih =>
    rw [List.flatMap_append, List.flatMap_singleton, State.runCalls_append, ih, State.runCalls_bitSlot]
    simp [bitSlot, PinCall.event, Cfg.pin]

theorem State.drive_latch_low (s : State) :
    s.drive .latch false =
      { s with lvLatch := some false, trace := s.trace ++ [.drive s.cfg.pinLatch false] } := rfl

/-- Raising a latch that is low copies the shift stage to the outputs (R194). -/
theorem State.drive_latch_rise (s : State) (h : s.lvLatch = some false) :
    s.drive .latch true =
      { s with
        lvLatch := some true
        chain := s.chain.latch
        trace := s.trace ++ [.drive s.cfg.pinLatch true] } := by
  simp [State.drive, State.logEvent, State.setLevel, State.chainAfter, State.drawsAfter, risingEdge, h, Cfg.pin]

/-- A frame, whole: the lines idle (R186), the pins shifted in and latched (R192, R194), its events appended (R187). It
draws no free value. -/
theorem State.sendFrame_eq (s : State) :
    s.sendFrame =
      { s with
        lvData := if s.cfg.count = 0 then s.lvData else some (s.buf.readPin 0)
        lvClk := if s.cfg.count = 0 then s.lvClk else some true
        lvLatch := some true
        chain := ((s.buf.pinsDown (8 * s.cfg.count)).foldl Chain.shift s.chain).latch
        trace := s.trace ++ Claims.frame s } := by
  have hslots := bufferSlots_readBytes s.buf (Nat.le_refl s.cfg.count)
  have hcalls : s.sendFrame =
      ((s.drive .latch false).runCalls ((s.buf.pinsDown (8 * s.cfg.count)).flatMap bitSlot)).drive .latch true := by
    rw [State.sendFrame, frameCalls, hslots, State.runCalls_append, State.runCalls_append]
    rfl
  rw [hcalls, State.runCalls_slots, State.drive_latch_rise _ rfl, State.drive_latch_low, Claims.frame,
    ← map_event_slots]
  by_cases hn : s.cfg.count = 0 <;> simp [hn, Memory.getLast?_pinsDown, Memory.pinsDown_eq_nil]

@[simp] theorem State.transmit_buf (s : State) : s.transmit.buf = s.buf := by
  simp [State.transmit, State.sendFrame_eq]

@[simp] theorem State.transmit_trace (s : State) : s.transmit.trace = s.trace ++ Claims.frame s := by
  simp [State.transmit, State.sendFrame_eq]

@[simp] theorem State.transmit_delivered (s : State) : s.transmit.delivered = s.delivered := by
  simp [State.transmit, State.sendFrame_eq]

/-! ## What a frame leaves in the chain (R197) -/

@[simp] theorem Chain.latch_m (c : Chain) : c.latch.m = c.m := rfl

@[simp] theorem Chain.latch_sh (c : Chain) : c.latch.sh = c.sh := rfl

@[simp] theorem Chain.latch_st (c : Chain) : c.latch.st = c.sh := rfl

@[simp] theorem Chain.foldl_shift_m (c : Chain) (bits : List Bool) : (bits.foldl Chain.shift c).m = c.m := by
  induction bits generalizing c with
  | nil => rfl
  | cons b bits ih => exact ih (c.shift b)

@[simp] theorem Chain.foldl_shift_st (c : Chain) (bits : List Bool) : (bits.foldl Chain.shift c).st = c.st := by
  induction bits generalizing c with
  | nil => rfl
  | cons b bits ih => exact ih (c.shift b)

/-- A shift is taken modulo `2^(8*M)`, so some bits shifted in leave the stage in range whatever it held. -/
theorem Chain.foldl_shift_lt (c : Chain) {bits : List Bool} (h : bits ≠ []) :
    (bits.foldl Chain.shift c).sh < 2 ^ (8 * c.m) := by
  induction bits using List.reverseRecOn with
  | nil => exact absurd rfl h
  | append_singleton bits b _ =>
    rw [List.foldl_append, ← Chain.foldl_shift_m c bits]
    exact Nat.mod_lt _ (Nat.two_pow_pos _)

/-- Position `q + 1` takes what position `q` held, and position 0 the bit (R192). -/
theorem Chain.testBit_shift (c : Chain) (b : Bool) {q : Nat} (hq : q < 8 * c.m) :
    (c.shift b).sh.testBit q = if q = 0 then b else c.sh.testBit (q - 1) := by
  cases q <;> cases b <;> simp [Chain.shift, hq, Nat.testBit_one_eq_true_iff_self_eq_zero]

/-- After the pins `k-1` down to 0, position `q` holds pin `q`, and from `k` up what was there moved up by `k`. -/
theorem Chain.testBit_foldl_shift (c : Chain) (m : Memory) (k : Nat) {q : Nat} (hq : q < 8 * c.m) :
    ((m.pinsDown k).foldl Chain.shift c).sh.testBit q = if q < k then m.readPin q else c.sh.testBit (q - k) := by
  induction k generalizing c with
  | zero => rfl
  | succ k ih =>
    rw [Memory.pinsDown_succ, List.foldl_cons, ih (c.shift (m.readPin k)) hq]
    rcases Nat.lt_trichotomy q k with hlt | rfl | hgt
    · rw [if_pos hlt, if_pos (by omega)]
    · rw [if_neg (by omega), if_pos (by omega), Chain.testBit_shift c _ (by omega), if_pos (by omega)]
    · rw [if_neg (by omega), if_neg (by omega), Chain.testBit_shift c _ (by omega), if_neg (by omega), Nat.sub_sub]

theorem Memory.number_lt (m : Memory) (n : Nat) : m.number n < 2 ^ (8 * n) := by
  induction n with
  | zero => simp [Memory.number]
  | succ n ih =>
    have hbyte := (m.read n).isLt
    have hpow : 2 ^ (8 * (n + 1)) = 2 ^ (8 * n) * 2 ^ 8 := by rw [← Nat.pow_add]; rfl
    rw [hpow]
    simp only [Memory.number]
    nlinarith

/-- In the number that `BUF` spells, bit `q` is pin `q` (R52). -/
theorem Memory.testBit_number (m : Memory) (n q : Nat) :
    (m.number n).testBit q = (decide (q < 8 * n) && m.readPin q) := by
  induction n with
  | zero => simp [Memory.number]
  | succ n ih =>
    rw [Memory.number, Nat.add_comm, Nat.mul_comm, Nat.testBit_two_pow_mul_add _ (m.number_lt n)]
    by_cases h : q < 8 * n
    · rw [if_pos h, ih]
      simp [h, show q < 8 * (n + 1) by omega]
    · obtain ⟨k, rfl⟩ := Nat.exists_eq_add_of_le (Nat.le_of_not_lt h)
      rw [if_neg h, Nat.add_sub_cancel_left, BitVec.testBit_toNat]
      by_cases hk : k < 8
      · simp [Memory.getLsbD_read m n hk, show 8 * n + k < 8 * (n + 1) by omega]
      · simp [BitVec.getLsbD_of_ge _ _ (Nat.le_of_not_lt hk), show ¬ 8 * n + k < 8 * (n + 1) by omega]

/-- The shift stage after a frame of at least one bit (R197): what it held moved up, and the buffer's number below. -/
theorem Chain.foldl_shift_sh (c : Chain) (m : Memory) {n : Nat} (hn : 1 ≤ n) :
    ((m.pinsDown (8 * n)).foldl Chain.shift c).sh = ((c.sh <<< (8 * n)) ||| m.number n) % 2 ^ (8 * c.m) := by
  have hsome : m.pinsDown (8 * n) ≠ [] := by rw [ne_eq, Memory.pinsDown_eq_nil]; omega
  apply Nat.eq_of_testBit_eq
  intro q
  rw [Nat.testBit_mod_two_pow, Nat.testBit_or, Nat.testBit_shiftLeft, Memory.testBit_number]
  by_cases hq : q < 8 * c.m
  · rw [Chain.testBit_foldl_shift c m _ hq]
    by_cases hk : q < 8 * n
    · simp [hq, hk]
    · simp [hq, hk, Nat.le_of_not_lt hk]
  · have hlt : ((m.pinsDown (8 * n)).foldl Chain.shift c).sh < 2 ^ q :=
      (c.foldl_shift_lt hsome).trans_le (Nat.pow_le_pow_right (by omega) (by omega))
    simp [hq, Nat.testBit_lt_two_pow hlt]

/-- With `M = N` the frame replaces the whole stage by the buffer's number (R199). -/
theorem Chain.foldl_shift_sh_of_eq (c : Chain) (m : Memory) {n : Nat} (hn : 1 ≤ n) (h : c.m = n) :
    ((m.pinsDown (8 * n)).foldl Chain.shift c).sh = m.number n := by
  rw [c.foldl_shift_sh m hn, h]
  apply Nat.eq_of_testBit_eq
  intro q
  rw [Nat.testBit_mod_two_pow, Nat.testBit_or, Nat.testBit_shiftLeft, Memory.testBit_number]
  by_cases hq : q < 8 * n <;> simp [hq]

end Sys2Proof.Machine

/-! PROOF. Decoding what the encoder writes (R71 to R78), the step a ready block takes for it (R21, R236, R281), and
what a command writes (R26, R30, R56). -/

namespace Sys2Proof

/-! ## The decode checks on an encoded command -/

/-- A word that passes the checks of R73, R74 and R80 is the command its fields spell. -/
theorem decodeFields_ok {o : Opcode} {f : Fields} (pay : List Byte) (hop : f.op = o.code)
    (hunused : unusedFieldsZero o f = true) (hlen : f.a = 0#1 → f.l = 0#8) :
    decodeFields f pay = .ok (assembleOperands o f pay) := by
  have hof : Opcode.ofCode f.op = some o := by rw [hop, Opcode.ofCode_code]
  have hlegal : ¬ (f.a = 0#1 ∧ f.l ≠ 0#8) := fun h => h.2 (hlen h.1)
  simp [decodeFields, hof, hunused, if_neg hlegal]

theorem Fields.withBuffer_op (o : Opcode) (b : Option (List Byte)) : (Fields.withBuffer o b).op = o.code := by
  cases b <;> rfl

/-- A buffer opcode's word describes its buffer as R74 asks. -/
theorem Fields.withBuffer_length (o : Opcode) (b : Option (List Byte)) :
    (Fields.withBuffer o b).a = 0#1 → (Fields.withBuffer o b).l = 0#8 := by
  cases b with
  | none => exact fun _ => rfl
  | some b => exact fun h => absurd h (by simp [Fields.withBuffer])

theorem oneBuffer_withBuffer (o : Opcode) (b : Option (List Byte)) :
    oneBuffer (Fields.withBuffer o b) (b.getD []) = b := by
  cases b <;> rfl

/-- A one-buffer command's word and payload pass the decode checks, and its buffer is read back (R76). -/
theorem decodeFields_oneBuffer {o : Opcode} {cmd : Option (List Byte) → Instr} (b : Option (List Byte))
    (hzero : unusedFieldsZero o (Fields.withBuffer o b) = true)
    (hcmd : ∀ f pay, assembleOperands o f pay = cmd (oneBuffer f pay)) :
    decodeFields (Fields.withBuffer o b) (b.getD []) = .ok (cmd b) := by
  rw [decodeFields_ok _ (Fields.withBuffer_op o b) hzero (Fields.withBuffer_length o b), hcmd, oneBuffer_withBuffer]

theorem twoBuffers_withBuffer (o : Opcode) {mv : Option (List Byte × List Byte)} (h : bufferPairFits mv = true) :
    twoBuffers (Fields.withBuffer o (mv.map Prod.fst)) (Instr.mstamp mv).payload = mv := by
  cases mv with
  | none => rfl
  | some mv =>
    obtain ⟨m, v⟩ := mv
    obtain ⟨hm, -⟩ : m.length < 256 ∧ m.length = v.length := by simpa [bufferPairFits] using h
    simp [twoBuffers, Fields.withBuffer, Instr.payload, Nat.mod_eq_of_lt hm]

theorem extractLsb'_high_setWidth (b : Byte) : (b.setWidth 16).extractLsb' 8 8 = 0#8 := by
  apply BitVec.eq_of_getLsbD_eq
  intro i hi
  simp

theorem extractLsb'_low_setWidth (b : Byte) : (b.setWidth 16).extractLsb' 0 8 = b := by
  apply BitVec.eq_of_getLsbD_eq
  intro i hi
  simp [hi]; omega

/-- The word of a command that fits its word passes the decode checks, and its operands are read back (R78). -/
theorem decodeFields_fields (i : Instr) (h : i.wellFormed = true) : decodeFields i.fields i.payload = .ok i := by
  cases i with
  | get pin | toggle pin => rfl
  | rdseg start count | wrseg start count value => rfl
  | readbuf | transmit => rfl
  | set pin bit =>
    have hzero : unusedFieldsZero .set (Instr.set pin bit).fields = true := by
      cases bit <;> simp [unusedFieldsZero, Instr.fields, Fields.bare]
    rw [decodeFields_ok _ rfl hzero fun _ => rfl]
    cases bit <;> simp [assembleOperands, Instr.fields]
  | fill b =>
    have hzero : unusedFieldsZero .fill (Instr.fill b).fields = true := by
      simp [unusedFieldsZero, Instr.fields, Fields.bare, extractLsb'_high_setWidth]
    rw [decodeFields_ok _ rfl hzero fun _ => rfl]
    simp [assembleOperands, Instr.fields, extractLsb'_low_setWidth]
  | mset b | mreset b | mtoggle b | overwrite b =>
    exact decodeFields_oneBuffer b (by cases b <;> rfl) fun _ _ => rfl
  | mstamp mv =>
    have hzero : unusedFieldsZero .mstamp (Fields.withBuffer .mstamp (mv.map Prod.fst)) = true := by
      cases mv <;> rfl
    rw [Instr.fields, decodeFields_ok _ (Fields.withBuffer_op _ _) hzero (Fields.withBuffer_length _ _),
      assembleOperands, twoBuffers_withBuffer _ h]

/-- The word of a well-formed command announces exactly the payload the encoder attaches (R75, R77). -/
theorem payloadLength_fields (i : Instr) (h : i.wellFormed = true) : payloadLength i.fields = i.payload.length := by
  cases i with
  | get pin => exact Laws.PayloadLength.get pin h
  | set pin bit => exact Laws.PayloadLength.set pin bit h
  | toggle pin => exact Laws.PayloadLength.toggle pin h
  | fill b => exact Laws.PayloadLength.fill b h
  | mset m => exact Laws.PayloadLength.mset m h
  | mreset m => exact Laws.PayloadLength.mreset m h
  | mtoggle m => exact Laws.PayloadLength.mtoggle m h
  | rdseg start count => exact Laws.PayloadLength.rdseg start count h
  | wrseg start count value => exact Laws.PayloadLength.wrseg start count value h
  | overwrite new => exact Laws.PayloadLength.overwrite new h
  | mstamp mv => exact Laws.PayloadLength.mstamp mv h
  | readbuf => exact Laws.PayloadLength.readbuf h
  | transmit => exact Laws.PayloadLength.transmit h

/-- Decoding an encoded command gives it back and leaves the bytes after it. -/
theorem decode_encode {i : Instr} (h : i.wellFormed = true) (rest : List Byte) :
    decode (encode i ++ rest) = .command i rest := by
  rw [encode, List.append_assoc, decode_bytesOfWord, Fields.ofWord_toWord,
    decodeAfterWord_append _ _ _ (payloadLength_fields i h).symm, decodeFields_fields i h]

end Sys2Proof

namespace Sys2Proof.Machine

/-! ## The step that runs a command -/

/-- A checked command answers a next state whatever its check gives (R227). -/
theorem State.checked_answers (s : State) (check : Option Status) (effect : State) :
    ∃ t, s.checked check effect = .next t := by
  cases check with
  | none => exact ⟨effect, rfl⟩
  | some e => exact ⟨s.raise e, rfl⟩

/-- Every command runs to completion in every state (R227, R230). -/
theorem exec_answers (i : Instr) (s : State) : ∃ t, exec i s = .next t := by
  cases i with
  | fill v => exact ⟨_, rfl⟩
  | readbuf | transmit => exact ⟨_, rfl⟩
  | _ => exact s.checked_answers _ _

/-- A ready block with a command at the front of its port runs it and delivers its response (R21, R236). -/
theorem step_of_command {s t : State} {i : Instr} {rest : List Byte} (hready : s.phase = .ready)
    (hdecode : decode s.port = .command i rest) (hexec : exec i (s.accept rest) = .next t) :
    step s = .next t.deliver := by
  simp only [step_of_ready hready, hdecode, hexec, deliverOutcome]

/-- No command touches the host's side of the link (R236). -/
theorem exec_delivered {i : Instr} {s t : State} (h : exec i s = .next t) : t.delivered = s.delivered := by
  rcases exec_next h with ⟨e, -, rfl⟩ | ⟨-, ht, -⟩ | ⟨-, rfl⟩
  · rfl
  · rw [ht]
  · exact s.transmit_delivered

/-- Settles O6: every command answers, and `step_of_command` delivers its response. -/
theorem stepRunsTheDecodedCommand : Obligations.StepRunsTheDecodedCommand := by
  intro s i rest hready hdecode
  obtain ⟨t, ht⟩ := exec_answers i (s.accept rest)
  exact ⟨t, ht, step_of_command hready hdecode ht⟩

/-- Settles O7: the port decodes to the command that was encoded, and no command changes what was delivered before. -/
theorem encodedCommandRunsInOneStep : Obligations.EncodedCommandRunsInOneStep := by
  intro s i rest hready hwf hport
  have hdecode : decode s.port = .command i rest := by rw [hport, decode_encode hwf]
  obtain ⟨t, ht, hstep⟩ := stepRunsTheDecodedCommand s i rest hready hdecode
  rw [exec_delivered ht] at hstep
  exact ⟨t, ht, hstep⟩

/-- Settles O10: in `Unbuilt` the step reads the construction request and never the port. -/
theorem unbuiltBlockOnlyConstructs : Obligations.UnbuiltBlockOnlyConstructs := by
  intro s hunbuilt
  constructor
  · intro hnone
    simp only [step, hunbuilt, hnone]
  · intro p hsome
    simp only [step, hunbuilt, hsome]

/-! ## What the commands write -/

/-- R56: the commands that read only leave `BUF`. -/
theorem exec_buf_of_reader {i : Instr} {s t : State} (h : exec i s = .next t)
    (hi : (∃ p, i = .get p) ∨ (∃ p c, i = .rdseg p c) ∨ i = .readbuf ∨ i = .transmit) : t.buf = s.buf := by
  rcases hi with ⟨p, rfl⟩ | ⟨p, c, rfl⟩ | rfl | rfl
  · rcases State.checked_next h with ⟨e, -, rfl⟩ | ⟨-, rfl⟩ <;> rfl
  · rcases State.checked_next h with ⟨e, -, rfl⟩ | ⟨-, rfl⟩ <;> rfl
  · cases h; rfl
  · cases h; exact s.transmit_buf

/-- Settles O51: by `exec_next`, what is no TRANSMIT raises a status or changes `BUF` and the response at most. -/
theorem onlyTransmitReachesTheLines : Obligations.OnlyTransmitReachesTheLines := by
  intro i s t h
  refine ⟨fun hi => ?_, exec_buf_of_reader h⟩
  rcases exec_next h with ⟨e, -, rfl⟩ | ⟨-, ht, -⟩ | ⟨htransmit, -⟩
  · rfl
  · exact ht
  · exact absurd htransmit hi

/-- A command appends to `TRACE` the events of the PinDriver calls it makes, and removes none (R30). -/
theorem exec_appends_trace {i : Instr} {s t : State} (h : exec i s = .next t) : ∃ e, t.trace = s.trace ++ e := by
  rcases exec_next h with ⟨e, -, rfl⟩ | ⟨-, ht, -⟩ | ⟨-, rfl⟩
  · exact ⟨[], by simp⟩
  · exact ⟨[], by rw [ht]; simp⟩
  · exact ⟨Claims.frame s, s.transmit_trace⟩

/-- Settles O53: an illegal word calls no pin, and a command appends. -/
theorem traceIsAppendOnly : Obligations.TraceIsAppendOnly := by
  intro s t hready h
  rcases step_next h with ⟨p, hunbuilt, -⟩ | ⟨why, rest, -, -, rfl⟩ | ⟨i, rest, u, -, -, hexec, rfl⟩
  · rw [hready] at hunbuilt; cases hunbuilt
  · exact ⟨[], by simp⟩
  · obtain ⟨e, he⟩ := exec_appends_trace hexec
    exact ⟨e, he⟩

end Sys2Proof.Machine

/-! PROOF. The invariant of a ready block (R22, R25, R26, R28, R31, R50, R81, R186, R235): part by part, what the shared
operations keep, then every command, construction, and every step. -/

namespace Sys2Proof.Machine

/-! ## BUF stays within N bytes (R22, R50) -/

/-- A memory in canonical form that lists no byte from `n` up. -/
def Memory.Within (m : Memory) (n : Nat) : Prop :=
  m.wf = true ∧ ∀ a, n ≤ a → m.read a = Memory.unlisted

theorem State.bufInv_iff (s : State) : s.BufInv ↔ s.buf.Within s.cfg.count := Iff.rfl

theorem Memory.within_nil (n : Nat) : Memory.Within [] n := ⟨rfl, fun _ _ => rfl⟩

theorem Memory.Within.mapBytes {m : Memory} {n : Nat} (h : m.Within n) (f : Nat → Byte → Byte) :
    (m.mapBytes f n).Within n := by
  refine ⟨Memory.wf_mapBytes f n h.1, fun a ha => ?_⟩
  rw [Memory.read_mapBytes, if_neg (by omega)]
  exact h.2 a ha

theorem Memory.Within.writeBytes {m : Memory} {n : Nat} (h : m.Within n) {v : List Byte} (hv : v.length = n) :
    (m.writeBytes 0 v).Within n := by
  refine ⟨Memory.wf_writeBytes 0 v h.1, fun a ha => ?_⟩
  rw [Memory.read_writeBytes, if_neg (by omega)]
  exact h.2 a ha

theorem Memory.Within.writePin {m : Memory} {n p : Nat} (h : m.Within n) (hp : p < 8 * n) (b : Bool) :
    (m.writePin p b).Within n := by
  refine ⟨Memory.wf_writePin p b h.1, fun a ha => ?_⟩
  rw [Memory.writePin, Memory.read_write_other _ _ (by omega)]
  exact h.2 a ha

theorem Memory.Within.writeSegment {m : Memory} {n start count : Nat} (h : m.Within n)
    (hend : start + count ≤ 8 * n) (value : BitVec 16) : (m.writeSegment start value count).Within n := by
  induction count with
  | zero => exact h
  | succ j ih => exact (ih (by omega)).writePin (by omega) _

/-! ## What a passed check says -/

theorem lt_of_checkPin_none {c : Cfg} {pin : PinIndex} (hc : 1 ≤ c.count) (h : checkPin c pin = none) :
    pin.toNat < 8 * c.count := by
  by_contra hlt
  rw [checkPin_some (by unfold Cfg.maxBit; omega)] at h
  cases h

theorem le_of_checkSegment_none {c : Cfg} {start : PinIndex} {count : BitVec 8} (hc : 1 ≤ c.count)
    (h : checkSegment c start count = none) : start.toNat + count.toNat ≤ 8 * c.count := by
  by_contra hle
  rw [checkSegment_some (by unfold Cfg.maxBit; omega)] at h
  cases h

theorem length_of_checkPayload_none {c : Cfg} {b : Option (List Byte)} (h : checkPayload c b = none) :
    (b.getD []).length = c.count := by
  cases b with
  | none => cases h
  | some b => simpa [checkPayload] using h

/-- Every command keeps `BUF` within the block's bytes: what it writes, it has checked first (R227). -/
theorem exec_keeps_bufInv {i : Instr} {s t : State} (hlegal : s.cfg.Legal) (hs : s.BufInv)
    (h : exec i s = .next t) : t.BufInv := by
  obtain ⟨hcount, -⟩ := hlegal
  cases i with
  | get p | rdseg p c =>
    rcases State.checked_next h with ⟨e, -, rfl⟩ | ⟨-, rfl⟩ <;> exact hs
  | readbuf => cases h; exact hs
  | transmit =>
    cases h
    rw [State.bufInv_iff, s.transmit_buf, s.transmit_keeps_configuration.1]
    exact hs
  | fill v => cases h; exact Memory.Within.mapBytes hs _
  | set p b | toggle p =>
    rcases State.checked_next h with ⟨e, -, rfl⟩ | ⟨hcheck, rfl⟩
    · exact hs
    · exact Memory.Within.writePin hs (lt_of_checkPin_none hcount hcheck) _
  | wrseg p c v =>
    rcases State.checked_next h with ⟨e, -, rfl⟩ | ⟨hcheck, rfl⟩
    · exact hs
    · exact Memory.Within.writeSegment hs (le_of_checkSegment_none hcount hcheck) v
  | mset m | mreset m | mtoggle m | mstamp mv =>
    rcases State.checked_next h with ⟨e, -, rfl⟩ | ⟨-, rfl⟩
    · exact hs
    · exact Memory.Within.mapBytes hs _
  | overwrite new =>
    rcases State.checked_next h with ⟨e, -, rfl⟩ | ⟨hcheck, rfl⟩
    · exact hs
    · exact Memory.Within.writeBytes hs (length_of_checkPayload_none hcheck)

/-! ## Each level is the last one TRACE drove (R26) -/

theorem lastDriven_append (pin : PinId) (lv : Option Level) (as bs : List Event) :
    lastDriven pin lv (as ++ bs) = lastDriven pin (lastDriven pin lv as) bs := by
  induction as generalizing lv with
  | nil => rfl
  | cons e as ih => cases e <;> exact ih _

/-- The level of every line is the last one that `TRACE` drove on its pin. -/
def State.LevelsTraced (s : State) : Prop :=
  ∀ line, s.level line = lastDriven (s.cfg.pin line) none s.trace

theorem Cfg.Legal.pin_eq_iff {c : Cfg} (h : c.Legal) (l line : Line) : c.pin l = c.pin line ↔ l = line := by
  obtain ⟨-, hdc, hdl, hcl⟩ := h
  cases l <;> cases line <;> simp [Cfg.pin, hdc, hdl, hcl, hdc.symm, hdl.symm, hcl.symm]

/-- `Drive` sets the level of its own line and no other. -/
theorem State.level_drive (s : State) (line l : Line) (b : Level) :
    (s.drive l b).level line = if l = line then some b else s.level line := by
  cases line <;> cases l <;> rfl

/-- A PinDriver call of the frame: with distinct pins, the event it appends drives its own line only. -/
theorem State.LevelsTraced.perform {s : State} (h : s.LevelsTraced) (hlegal : s.cfg.Legal) (c : PinCall) :
    (s.perform c).LevelsTraced := by
  intro line
  cases c with
  | hold =>
    rw [State.perform, State.delay_trace, lastDriven_append]
    exact h line
  | drive l b =>
    have hlast : ∀ lv, lastDriven (s.cfg.pin line) lv [.drive (s.cfg.pin l) b] =
        if s.cfg.pin l = s.cfg.pin line then some b else lv := fun _ => rfl
    rw [State.perform, State.level_drive, State.drive_cfg, State.drive_trace, lastDriven_append, hlast, ← h line]
    simp only [hlegal.pin_eq_iff]

theorem State.LevelsTraced.runCalls {s : State} (h : s.LevelsTraced) (hlegal : s.cfg.Legal) (cs : List PinCall) :
    (s.runCalls cs).LevelsTraced := by
  induction cs generalizing s with
  | nil => exact h
  | cons c cs ih =>
    obtain ⟨-, hcfg, -⟩ := s.perform_keeps c
    exact ih (h.perform hlegal c) (hcfg ▸ hlegal)

/-- With the lines idle (R186), traced levels are the line part of the invariant. -/
theorem State.LevelsTraced.lineInv {s : State} (h : s.LevelsTraced) (hclk : s.lvClk = some true)
    (hlatch : s.lvLatch = some true) (hdata : s.lvData ≠ none) : s.LineInv :=
  ⟨hclk, hlatch, hdata, h .data, h .clk, h .latch⟩

theorem State.LineInv.levelsTraced {s : State} (h : s.LineInv) : s.LevelsTraced := by
  obtain ⟨-, -, -, hdata, hclk, hlatch⟩ := h
  intro line
  cases line <;> assumption

/-! ## TRANSMIT -/

/-- A frame of a legal block leaves the lines idle and traced (R186). -/
theorem State.transmit_lineInv {s : State} (hlegal : s.cfg.Legal) (h : s.LevelsTraced) : s.transmit.LineInv := by
  have htraced : s.transmit.LevelsTraced := h.runCalls hlegal _
  obtain ⟨hcount, -⟩ := hlegal
  have hne : s.cfg.count ≠ 0 := by omega
  apply htraced.lineInv <;> simp [State.transmit, State.sendFrame_eq, hne]

/-- A frame shifts at least one bit, so both stages of the chain end in range, whatever they held (R31). -/
theorem State.transmit_chainInv {s : State} (hlegal : s.cfg.Legal) : s.transmit.ChainInv := by
  obtain ⟨hcount, -⟩ := hlegal
  have hsome : s.buf.pinsDown (8 * s.cfg.count) ≠ [] := by rw [ne_eq, Memory.pinsDown_eq_nil]; omega
  have hlt := s.chain.foldl_shift_lt hsome
  rw [State.ChainInv, State.transmit, State.done_chain, State.sendFrame_eq]
  simp [Chain.latch, hlt]

/-! ## Every command -/

theorem Response.sound_ok {r : Response} (h : r.status = .ok) : r.Sound := fun hne => absurd h hne

/-- What the invariant says of a block that is ready. -/
def State.ReadyInv (s : State) : Prop :=
  s.cfg.Legal ∧ s.BufInv ∧ s.LineInv ∧ s.ChainInv ∧ s.resp.Sound

theorem State.inv_iff (s : State) : s.Inv ↔ (s.phase = .ready → s.ReadyInv) := Iff.rfl

theorem State.ReadyInv.raise {s : State} (h : s.ReadyInv) (e : Status) : (s.raise e).ReadyInv := by
  obtain ⟨hlegal, hbuf, hline, hchain, -⟩ := h
  exact ⟨hlegal, hbuf, hline, hchain, fun _ => ⟨rfl, rfl⟩⟩

/-- TRANSMIT establishes the lines and the chain, which it needs in no particular state. -/
theorem State.transmit_readyInv {s : State} (hlegal : s.cfg.Legal) (hbuf : s.BufInv) (htraced : s.LevelsTraced) :
    s.transmit.ReadyInv := by
  have hcfg : s.transmit.cfg = s.cfg := s.transmit_keeps_configuration.1
  refine ⟨hcfg ▸ hlegal, ?_, s.transmit_lineInv hlegal htraced, s.transmit_chainInv hlegal, Response.sound_ok rfl⟩
  rw [State.bufInv_iff, s.transmit_buf, hcfg]
  exact hbuf

theorem exec_keeps_readyInv {i : Instr} {s t : State} (hs : s.ReadyInv) (h : exec i s = .next t) : t.ReadyInv := by
  obtain ⟨hlegal, hbuf, hline, hchain, -⟩ := id hs
  rcases exec_next h with ⟨e, -, rfl⟩ | ⟨-, ht, hok⟩ | ⟨-, rfl⟩
  · exact hs.raise e
  · have hbuf' := exec_keeps_bufInv hlegal hbuf h
    rw [ht] at hbuf' hok ⊢
    exact ⟨hlegal, hbuf', hline, hchain, Response.sound_ok hok⟩
  · exact s.transmit_readyInv hlegal hbuf hline.levelsTraced

/-! ## Construction (R262) -/

/-- The block when the construction reaches its TRANSMIT: pins configured, no line driven, `BUF` filled. -/
def State.configured (s : State) (p : ConstructParams) : State :=
  { (((s.fresh p).configure .data).configure .clk).configure .latch with buf := constructBuf p }

theorem construct_eq {p : ConstructParams} (s : State) (h : constructLegal p = true) :
    construct p s = .next { (s.configured p).transmit with phase := .ready } := by
  unfold construct
  rw [if_pos h]
  rfl

theorem construct_next {p : ConstructParams} {s t : State} (h : construct p s = .next t) :
    constructLegal p = true ∧ t = { (s.configured p).transmit with phase := .ready } := by
  by_cases hlegal : constructLegal p = true
  · rw [construct_eq s hlegal] at h
    cases h
    exact ⟨hlegal, rfl⟩
  · simp [construct, hlegal] at h

/-- R261, case by case. -/
theorem constructLegal_iff (p : ConstructParams) :
    constructLegal p = true ↔
      (1 ≤ p.registerCount ∧ p.registerCount ≤ 255) ∧
      (p.pinData ≠ p.pinClk ∧ p.pinData ≠ p.pinLatch ∧ p.pinClk ≠ p.pinLatch) ∧
      ∀ b, p.seed = some b → b.length = p.registerCount := by
  cases hseed : p.seed <;> simp [constructLegal, hseed, and_assoc]

theorem constructCfg_count {p : ConstructParams} (h : p.registerCount ≤ 255) :
    (constructCfg p).count = p.registerCount := by
  simp [constructCfg, Cfg.count]
  omega

theorem constructCfg_legal {p : ConstructParams} (h : constructLegal p = true) : (constructCfg p).Legal := by
  obtain ⟨⟨hlow, hhigh⟩, hpins, -⟩ := (constructLegal_iff p).mp h
  exact ⟨by rw [constructCfg_count hhigh]; exact hlow, hpins⟩

/-- The content that construction writes, one byte per register (R262). -/
theorem length_seed {p : ConstructParams} (h : constructLegal p = true) :
    (p.seed.getD (List.replicate p.registerCount 0x00#8)).length = p.registerCount := by
  obtain ⟨-, -, hseed⟩ := (constructLegal_iff p).mp h
  cases hs : p.seed with
  | none => simp
  | some b => exact hseed b hs

theorem constructBuf_within {p : ConstructParams} (h : constructLegal p = true) :
    (constructBuf p).Within p.registerCount :=
  (Memory.within_nil _).writeBytes (length_seed h)

/-- Before its TRANSMIT a construction has driven no line: every level is ⊥, and its trace drives no pin (R34). -/
theorem State.configured_levelsTraced (s : State) (p : ConstructParams) : (s.configured p).LevelsTraced := by
  intro line
  cases line <;> rfl

theorem construct_establishes_readyInv {p : ConstructParams} {s t : State} (h : construct p s = .next t) :
    t.ReadyInv := by
  obtain ⟨hlegal, rfl⟩ := construct_next h
  obtain ⟨⟨-, hhigh⟩, -⟩ := (constructLegal_iff p).mp hlegal
  have hbuf : (s.configured p).BufInv := by
    have hwithin := constructBuf_within hlegal
    rw [← constructCfg_count hhigh] at hwithin
    exact hwithin
  exact State.transmit_readyInv (constructCfg_legal hlegal) hbuf (s.configured_levelsTraced p)

/-! ## Every step -/

/-- Settles O55: a construction establishes the invariant of a ready block, and every command, legal or illegal, keeps
it. -/
theorem stepKeepsTheInvariant : Obligations.StepKeepsTheInvariant := by
  intro s t hs h _
  rcases step_next h with ⟨p, -, -, hconstruct⟩ | ⟨why, rest, hready, -, rfl⟩ |
    ⟨i, rest, u, hready, -, hexec, rfl⟩
  · exact construct_establishes_readyInv hconstruct
  · have hacc : (s.accept rest).ReadyInv := hs hready
    exact hacc.raise .illegalCommand
  · have hacc : (s.accept rest).ReadyInv := hs hready
    have hran : u.ReadyInv := exec_keeps_readyInv hacc hexec
    exact hran

end Sys2Proof.Machine

/-! PROOF. Construction and the reset state: every value of the table of R34 (R262, R263). -/

namespace Sys2Proof.Machine

/-! ## The block a construction leaves -/

/-- The content after construction: the seed's bytes, and 0x00 elsewhere (R262; log entry 1). -/
theorem read_constructBuf (p : ConstructParams) (i : Nat) :
    (constructBuf p).read i = match p.seed with | some b => b.getD i 0x00#8 | none => 0x00#8 := by
  have hread : (constructBuf p).read i = (p.seed.getD (List.replicate p.registerCount 0x00#8)).getD i 0x00#8 := by
    rw [constructBuf, Memory.read_writeBytes]
    split
    · rfl
    · rw [List.getD_eq_default _ _ (by omega)]; rfl
  rw [hread]
  cases p.seed with
  | none => simp
  | some b => rfl

/-- The block that a construction leaves: the table of R34, with the chain as the frame computes it from what the three
`Configure` calls left there (R262, R266). -/
def State.constructed (s : State) (p : ConstructParams) : State where
  phase := .ready
  cfg := constructCfg p
  buf := constructBuf p
  lvData := some ((constructBuf p).readPin 0)
  lvClk := some true
  lvLatch := some true
  resp := ⟨.ok, 0#16, []⟩
  trace := [.configure p.pinData, .configure p.pinClk, .configure p.pinLatch] ++ Claims.frame (s.configured p)
  chain := (((constructBuf p).pinsDown (8 * p.registerCount)).foldl Chain.shift (s.configured p).chain).latch
  port := s.port
  request := none
  delivered := s.delivered
  draws := s.draws + 3

theorem construct_eq_constructed {p : ConstructParams} (s : State) (h : constructLegal p = true) :
    construct p s = .next (s.constructed p) := by
  obtain ⟨⟨hlow, hhigh⟩, -⟩ := (constructLegal_iff p).mp h
  have hcount : (s.configured p).cfg.count = p.registerCount := constructCfg_count hhigh
  have hne : p.registerCount ≠ 0 := by omega
  rw [construct_eq s h, State.transmit, State.sendFrame_eq]
  simp only [hcount, if_neg hne]
  rfl

@[simp] theorem State.configured_chain_m (s : State) (p : ConstructParams) :
    (s.configured p).chain.m = s.chain.m := rfl

@[simp] theorem State.constructed_chain_m (s : State) (p : ConstructParams) :
    (s.constructed p).chain.m = s.chain.m := by
  simp [State.constructed]

theorem State.constructed_chain_sh (s : State) {p : ConstructParams} (h : 1 ≤ p.registerCount) :
    (s.constructed p).chain.sh =
      (((s.configured p).chain.sh <<< (8 * p.registerCount)) ||| (s.constructed p).buf.number p.registerCount) %
        2 ^ (8 * s.chain.m) :=
  (s.configured p).chain.foldl_shift_sh (constructBuf p) h

/-- With `M = N` nothing of the chain's earlier content is left (R199). -/
theorem State.constructed_chain_sh_of_eq (s : State) {p : ConstructParams} (h : 1 ≤ p.registerCount)
    (hm : s.chain.m = p.registerCount) :
    (s.constructed p).chain.sh = (s.constructed p).buf.number p.registerCount :=
  (s.configured p).chain.foldl_shift_sh_of_eq (constructBuf p) h hm

/-! ## The reset parameters (log entry 2) -/

theorem constructBuf_resetParams : constructBuf resetParams = [] := by decide

theorem reset_trace :
    State.reset.trace = [.configure ⟨0⟩, .configure ⟨1⟩, .configure ⟨2⟩] ++ Claims.frame State.reset := by
  decide

/-- On a chain of two registers and an empty port, the block that `resetParams` construct is `State.reset`. -/
theorem State.constructed_resetParams (s : State) (hm : s.chain.m = 2) (hport : s.port = [])
    (hdelivered : s.delivered = []) :
    s.constructed resetParams = { State.reset with draws := (s.constructed resetParams).draws } := by
  have hframe : Claims.frame (s.configured resetParams) = Claims.frame State.reset := by
    simp only [Claims.frame, State.configured, constructBuf_resetParams]
    rfl
  have hsh : (s.constructed resetParams).chain.sh = 0 := by
    rw [s.constructed_chain_sh_of_eq (by decide) hm]
    exact congrArg (fun m => Memory.number m 2) constructBuf_resetParams
  have hchain : (s.constructed resetParams).chain = ⟨2, 0, 0⟩ := by
    rw [← hsh, ← hm, ← s.constructed_chain_m resetParams]
    rfl
  have htrace : (s.constructed resetParams).trace = State.reset.trace := by
    rw [reset_trace, ← hframe]
    rfl
  have hdata : (s.constructed resetParams).lvData = some false :=
    congrArg (fun m => some (Memory.readPin m 0)) constructBuf_resetParams
  exact (State.mk.injEq ..).mpr
    ⟨rfl, rfl, constructBuf_resetParams, hdata, rfl, rfl, rfl, htrace, hchain, hport, rfl, hdelivered, rfl⟩

/-! ## The obligations -/

/-- Settles O11: clause by clause the fields of `State.constructed`. -/
theorem constructionEstablishesTheResetTable : Obligations.ConstructionEstablishesTheResetTable := by
  intro p s hlow hhigh hdc hdl hcl hseed
  have hlegal := (constructLegal_iff p).mpr ⟨⟨hlow, hhigh⟩, ⟨hdc, hdl, hcl⟩, hseed⟩
  have hcount : (s.configured p).cfg.count = p.registerCount := constructCfg_count hhigh
  have hlength : (s.constructed p).trace.length = 3 + (2 + 32 * p.registerCount) := by
    simp [State.constructed, hcount]; omega
  have htrace : (s.constructed p).trace =
      [.configure p.pinData, .configure p.pinClk, .configure p.pinLatch] ++ Claims.frame (s.constructed p) := rfl
  have hlatched : (s.constructed p).chain.st = (s.constructed p).chain.sh := rfl
  exact ⟨s.constructed p, construct_eq_constructed s hlegal, rfl,
    hcount, rfl, rfl, rfl, rfl, read_constructBuf p,
    rfl, rfl, rfl, rfl, htrace, hlength,
    s.constructed_chain_m p, hlatched, ⟨_, s.constructed_chain_sh hlow⟩, s.constructed_chain_sh_of_eq hlow,
    rfl, rfl⟩

/-- Settles O13: with `M = N = 2` the frame of zeros pushes out whatever the chain held. -/
theorem constructionReachesTheResetState : Obligations.ConstructionReachesTheResetState := by
  intro sh st draws
  let s : State := { State.unbuilt (some resetParams) ⟨2, sh, st⟩ with draws := draws }
  have hstep : step s = .next (s.constructed resetParams) :=
    ((unbuiltBlockOnlyConstructs s rfl).2 resetParams rfl).trans (construct_eq_constructed s rfl)
  exact ⟨_, hstep, s.constructed_resetParams rfl rfl rfl⟩

/-- Settles O14: each value is the literal's own, and the empty list of bytes reads as 0x00 (log entry 1). -/
theorem resetStateHasTheTableValues : Obligations.ResetStateHasTheTableValues :=
  ⟨rfl, fun _ => rfl, rfl, rfl, rfl, rfl, rfl, rfl⟩

/-- Settles O56: a construction reaches the reset state, and every construction establishes the invariant. -/
theorem resetMeetsTheInvariant : Obligations.ResetMeetsTheInvariant := by
  obtain ⟨t, hstep, ht⟩ := constructionReachesTheResetState 0 0 0
  have hinv : t.ReadyInv := construct_establishes_readyInv hstep
  rw [ht] at hinv
  exact (State.inv_iff _).mpr fun _ => hinv

end Sys2Proof.Machine

/-! PROOF. The statements of 20_memory.md: the weight of a pin in the buffer's number (R52), and what running a command
twice leaves (R59). -/

namespace Sys2Proof.Machine

/-- Settles O47: `Memory.testBit_number`, by induction on the number of bytes. -/
theorem pinsCarryTheirWeightInTheBufferNumber : Obligations.PinsCarryTheirWeightInTheBufferNumber :=
  Memory.testBit_number

/-! ## Writing the same twice -/

/-- Two memories in canonical form whose pins agree are equal data. -/
theorem Memory.ext_readPin {m m' : Memory} (h : m.wf = true) (h' : m'.wf = true)
    (hp : ∀ p, m.readPin p = m'.readPin p) : m = m' :=
  Memory.ext_read h h' (Memory.read_eq_of_readPin hp)

theorem Memory.mapBytes_twice_of_idempotent {m : Memory} (h : m.wf = true) {f : Nat → Byte → Byte} {n : Nat}
    (hf : ∀ i b, f i (f i b) = f i b) : (m.mapBytes f n).mapBytes f n = m.mapBytes f n := by
  have hwf := Memory.wf_mapBytes f n h
  refine Memory.ext_read (Memory.wf_mapBytes f n hwf) hwf fun a => ?_
  by_cases ha : a < n <;> simp [Memory.read_mapBytes, ha, hf]

theorem Memory.mapBytes_twice_of_involutive {m : Memory} (h : m.wf = true) {f : Nat → Byte → Byte} {n : Nat}
    (hf : ∀ i b, f i (f i b) = b) : (m.mapBytes f n).mapBytes f n = m := by
  have hwf := Memory.wf_mapBytes f n h
  refine Memory.ext_read (Memory.wf_mapBytes f n hwf) h fun a => ?_
  by_cases ha : a < n <;> simp [Memory.read_mapBytes, ha, hf]

theorem Memory.writeBytes_twice {m : Memory} (h : m.wf = true) (a : Nat) (v : List Byte) :
    (m.writeBytes a v).writeBytes a v = m.writeBytes a v := by
  have hwf := Memory.wf_writeBytes a v h
  refine Memory.ext_read (Memory.wf_writeBytes a v hwf) hwf fun b => ?_
  by_cases hb : a ≤ b ∧ b < a + v.length <;> simp [Memory.read_writeBytes, hb]

theorem Memory.writePin_twice {m : Memory} (h : m.wf = true) (p : Nat) (b : Bool) :
    (m.writePin p b).writePin p b = m.writePin p b := by
  have hwf := Memory.wf_writePin p b h
  refine Memory.ext_readPin (Memory.wf_writePin p b hwf) hwf fun q => ?_
  by_cases hq : q = p <;> simp [Memory.readPin_writePin, hq]

theorem Memory.writeSegment_twice {m : Memory} (h : m.wf = true) (start : Nat) (value : BitVec 16) (n : Nat) :
    (m.writeSegment start value n).writeSegment start value n = m.writeSegment start value n := by
  have hwf := Memory.wf_writeSegment start value n h
  refine Memory.ext_readPin (Memory.wf_writeSegment start value n hwf) hwf fun p => ?_
  by_cases hp : start ≤ p ∧ p < start + n <;> simp [Memory.readPin_writeSegment, hp]

/-- `BUF` with one pin inverted, as TOGGLE leaves it (R106). -/
def Memory.togglePin (m : Memory) (p : Nat) : Memory := m.writePin p (!m.readPin p)

theorem Memory.togglePin_twice {m : Memory} (h : m.wf = true) (p : Nat) : (m.togglePin p).togglePin p = m := by
  refine Memory.ext_readPin (Memory.wf_writePin p _ (Memory.wf_writePin p _ h)) h fun q => ?_
  by_cases hq : q = p <;> simp [Memory.togglePin, Memory.readPin_writePin, hq]

/-! ## A command that rewrites BUF, run twice -/

/-- A command that checks its operands against `CFG` and then rewrites `BUF` (R227): every command that R56 says writes
`BUF` has this form. -/
def State.rewriteBuf (s : State) (check : Cfg → Option Status) (g : Cfg → Memory → Memory) :
    Host.Outcome State Fault Refusal :=
  s.checked (check s.cfg) { s with buf := g s.cfg s.buf }.done

/-- No such command writes `CFG`, so a second run passes or fails its check as the first did. -/
theorem State.rewriteBuf_twice {s t u : State} {check : Cfg → Option Status} {g : Cfg → Memory → Memory}
    (hfirst : s.rewriteBuf check g = .next t) (hsecond : t.rewriteBuf check g = .next u) :
    (t.buf = s.buf ∧ u.buf = s.buf) ∨ (t.buf = g s.cfg s.buf ∧ u.buf = g s.cfg (g s.cfg s.buf)) := by
  rcases State.checked_next hfirst with ⟨e, hfail, rfl⟩ | ⟨hpass, rfl⟩ <;>
    rcases State.checked_next hsecond with ⟨e', hfail', rfl⟩ | ⟨hpass', rfl⟩
  · exact .inl ⟨rfl, rfl⟩
  · rw [State.raise_cfg, hfail] at hpass'; cases hpass'
  · rw [State.done_cfg, hpass] at hfail'; cases hfail'
  · exact .inr ⟨rfl, rfl⟩

theorem State.rewriteBuf_twice_of_idempotent {s t u : State} {check : Cfg → Option Status}
    {g : Cfg → Memory → Memory} (hg : g s.cfg (g s.cfg s.buf) = g s.cfg s.buf) (hfirst : s.rewriteBuf check g = .next t)
    (hsecond : t.rewriteBuf check g = .next u) : u.buf = t.buf := by
  rcases State.rewriteBuf_twice hfirst hsecond with ⟨ht, hu⟩ | ⟨ht, hu⟩
  · rw [hu, ht]
  · rw [hu, ht, hg]

theorem State.rewriteBuf_twice_of_involutive {s t u : State} {check : Cfg → Option Status}
    {g : Cfg → Memory → Memory} (hg : g s.cfg (g s.cfg s.buf) = s.buf) (hfirst : s.rewriteBuf check g = .next t)
    (hsecond : t.rewriteBuf check g = .next u) : u.buf = s.buf := by
  rcases State.rewriteBuf_twice hfirst hsecond with ⟨-, hu⟩ | ⟨-, hu⟩
  · exact hu
  · rw [hu, hg]

/-! ## The form of each command that writes BUF (R56) -/

theorem exec_set (pin : PinIndex) (bit : Bool) (s : State) :
    exec (.set pin bit) s = s.rewriteBuf (checkPin · pin) fun _ m => m.writePin pin.toNat bit := rfl

theorem exec_toggle (pin : PinIndex) (s : State) :
    exec (.toggle pin) s = s.rewriteBuf (checkPin · pin) fun _ m => m.togglePin pin.toNat := rfl

theorem exec_fill (v : Byte) (s : State) :
    exec (.fill v) s = s.rewriteBuf (fun _ => none) fun c m => m.mapBytes (fun _ _ => v) c.count := rfl

theorem exec_mset (mask : Option (List Byte)) (s : State) :
    exec (.mset mask) s = s.rewriteBuf (checkPayload · mask) fun c m =>
      m.mapBytes (fun i old => old ||| bufferByte (mask.getD []) i) c.count := rfl

theorem exec_mreset (mask : Option (List Byte)) (s : State) :
    exec (.mreset mask) s = s.rewriteBuf (checkPayload · mask) fun c m =>
      m.mapBytes (fun i old => old &&& ~~~bufferByte (mask.getD []) i) c.count := rfl

theorem exec_mtoggle (mask : Option (List Byte)) (s : State) :
    exec (.mtoggle mask) s = s.rewriteBuf (checkPayload · mask) fun c m =>
      m.mapBytes (fun i old => old ^^^ bufferByte (mask.getD []) i) c.count := rfl

/-- A byte that MSTAMP writes: the value's bits where the mask selects, the old bits elsewhere (R140). -/
def stampByte (mask val old : Byte) : Byte := (old &&& ~~~mask) ||| (val &&& mask)

theorem stampByte_twice (mask val old : Byte) :
    stampByte mask val (stampByte mask val old) = stampByte mask val old := by
  apply BitVec.eq_of_getLsbD_eq
  intro k hk
  cases hmask : mask[k] <;> simp [stampByte, hmask, hk]

theorem exec_mstamp (mv : Option (List Byte × List Byte)) (s : State) :
    exec (.mstamp mv) s = s.rewriteBuf (checkPayloadPair · mv) fun c m =>
      m.mapBytes (fun i => stampByte (bufferByte (mv.getD ([], [])).1 i) (bufferByte (mv.getD ([], [])).2 i))
        c.count := rfl

theorem exec_wrseg (start : PinIndex) (count : BitVec 8) (value : BitVec 16) (s : State) :
    exec (.wrseg start count value) s = s.rewriteBuf (checkSegment · start count) fun _ m =>
      m.writeSegment start.toNat value count.toNat := rfl

theorem exec_overwrite (new : Option (List Byte)) (s : State) :
    exec (.overwrite new) s = s.rewriteBuf (checkPayload · new) fun _ m => m.writeBytes 0 (new.getD []) := rfl

/-! ## TRANSMIT twice -/

theorem State.transmit_eq (s : State) :
    s.transmit =
      { s with
        lvData := if s.cfg.count = 0 then s.lvData else some (s.buf.readPin 0)
        lvClk := if s.cfg.count = 0 then s.lvClk else some true
        lvLatch := some true
        resp := ⟨.ok, 0#16, []⟩
        chain := ((s.buf.pinsDown (8 * s.cfg.count)).foldl Chain.shift s.chain).latch
        trace := s.trace ++ Claims.frame s } := by
  rw [State.transmit, State.sendFrame_eq]
  rfl

/-- A latch forgets the outputs that were shown before (R194). -/
theorem Chain.latch_congr {c d : Chain} (hm : c.m = d.m) (hsh : c.sh = d.sh) : c.latch = d.latch := by
  simp only [Chain.latch, hm, hsh]

/-- With `M = N` a second frame of the same buffer leaves the chain as the first did (R59, R199). -/
theorem Chain.frame_twice (c : Chain) (m : Memory) {n : Nat} (h : c.m = n) :
    ((m.pinsDown (8 * n)).foldl Chain.shift ((m.pinsDown (8 * n)).foldl Chain.shift c).latch).latch =
      ((m.pinsDown (8 * n)).foldl Chain.shift c).latch := by
  cases n with
  | zero => rfl
  | succ n =>
    have hn : 1 ≤ n + 1 := Nat.le_add_left 1 n
    apply Chain.latch_congr (by simp)
    rw [Chain.foldl_shift_sh_of_eq _ m hn (by simpa using h), Chain.foldl_shift_sh_of_eq c m hn h]

theorem transmit_twice (s : State) :
    s.transmit.transmit.lvData = s.transmit.lvData ∧ s.transmit.transmit.lvClk = s.transmit.lvClk ∧
    s.transmit.transmit.lvLatch = s.transmit.lvLatch ∧
    (s.chain.m = s.cfg.count → s.transmit.transmit.chain = s.transmit.chain) ∧
    s.transmit.transmit.trace = s.transmit.trace ++ Claims.frame s := by
  rw [State.transmit_eq s.transmit, State.transmit_eq s]
  refine ⟨?_, ?_, rfl, fun hm => Chain.frame_twice s.chain s.buf hm, rfl⟩
  all_goals by_cases hn : s.cfg.count = 0 <;> simp [hn]

/-! ## The obligation -/

/-- SET, FILL, MSET, MRESET, MSTAMP, WRSEG and OVERWRITE: each rewrites `BUF` by an idempotent function. -/
theorem exec_twice_of_idempotent {s t u : State} (hwf : s.buf.wf = true) {pin : PinIndex} {bit : Bool} {byte : Byte}
    {m : Option (List Byte)} {mv : Option (List Byte × List Byte)} {count : BitVec 8} {value : BitVec 16} :
    ∀ i ∈ [Instr.set pin bit, .fill byte, .mset m, .mreset m, .mstamp mv, .wrseg pin count value, .overwrite m],
      exec i s = .next t → exec i t = .next u → u.buf = t.buf := by
  simp only [List.forall_mem_cons, exec_set, exec_fill, exec_mset, exec_mreset, exec_mstamp, exec_wrseg,
    exec_overwrite]
  refine ⟨?set, ?fill, ?mset, ?mreset, ?mstamp, ?wrseg, ?overwrite, nofun⟩ <;>
    apply State.rewriteBuf_twice_of_idempotent
  case set => exact Memory.writePin_twice hwf _ _
  case fill => exact Memory.mapBytes_twice_of_idempotent hwf fun _ _ => rfl
  case mset => exact Memory.mapBytes_twice_of_idempotent hwf fun _ _ => by rw [BitVec.or_assoc, BitVec.or_self]
  case mreset => exact Memory.mapBytes_twice_of_idempotent hwf fun _ _ => by rw [BitVec.and_assoc, BitVec.and_self]
  case mstamp => exact Memory.mapBytes_twice_of_idempotent hwf fun _ _ => stampByte_twice _ _ _
  case wrseg => exact Memory.writeSegment_twice hwf _ _ _
  case overwrite => exact Memory.writeBytes_twice hwf _ _

/-- TOGGLE and MTOGGLE: each rewrites `BUF` by an involution. -/
theorem exec_twice_of_involutive {s t u : State} (hwf : s.buf.wf = true) {pin : PinIndex} {m : Option (List Byte)} :
    ∀ i ∈ [Instr.toggle pin, .mtoggle m], exec i s = .next t → exec i t = .next u → u.buf = s.buf := by
  simp only [List.forall_mem_cons, exec_toggle, exec_mtoggle]
  refine ⟨?toggle, ?mtoggle, nofun⟩ <;> apply State.rewriteBuf_twice_of_involutive
  case toggle => exact Memory.togglePin_twice hwf _
  case mtoggle =>
    exact Memory.mapBytes_twice_of_involutive hwf
      fun _ _ => by rw [BitVec.xor_assoc, BitVec.xor_self, BitVec.xor_zero]

/-- Settles O31: a second run passes or fails its check as the first did and rewrites `BUF` by the same function, and a
second frame carries the same pins. -/
theorem repeatingACommand : Obligations.RepeatingACommand := by
  refine ⟨fun s t u pin bit byte m mv count value hwf => exec_twice_of_idempotent hwf,
    fun s t u pin m hwf => exec_twice_of_involutive hwf, fun s t u hfirst hsecond => ?_⟩
  cases hfirst
  cases hsecond
  obtain ⟨hdata, hclk, hlatch, hchain, htrace⟩ := transmit_twice s
  exact ⟨hdata, hclk, hlatch, hchain, Claims.frame s, s.transmit_trace, htrace⟩

end Sys2Proof.Machine

/-! PROOF. The bytes of a command (R71 to R80): a stream that decodes to a command is its encoding, and the worked
encodings of 30_encoding.md section 7 are encodings. -/

namespace Sys2Proof

/-! ## Inverting the decoder -/

/-- The words that pass the checks of R73, R74 and R80, and the command each one spells. -/
theorem decodeFields_eq_ok_iff {f : Fields} {pay : List Byte} {i : Instr} :
    decodeFields f pay = .ok i ↔ ∃ o, f.op = o.code ∧ unusedFieldsZero o f = true ∧ (f.a = 0#1 → f.l = 0#8) ∧
      i = assembleOperands o f pay := by
  constructor
  · intro h
    unfold decodeFields at h
    split at h
    · cases h
    next o ho =>
      split at h
      · cases h
      next hzero =>
        split at h
        · cases h
        next hlen =>
          exact ⟨o, Opcode.code_of_ofCode ho, by simpa using hzero, by simpa using hlen, by simpa using h.symm⟩
  · rintro ⟨o, hop, hzero, hlen, rfl⟩
    exact decodeFields_ok pay hop hzero hlen

/-- Bytes that decode to a command after a word are its payload and the bytes left (R75). -/
theorem decodeAfterWord_eq_command {f : Fields} {bs rest : List Byte} {i : Instr}
    (h : decodeAfterWord f bs = .command i rest) :
    ∃ pay, bs = pay ++ rest ∧ pay.length = payloadLength f ∧ decodeFields f pay = .ok i := by
  by_cases hlen : bs.length < payloadLength f
  · rw [decodeAfterWord_short f bs hlen] at h
    cases h
  · have hpay : (bs.take (payloadLength f)).length = payloadLength f := List.length_take_of_le (by omega)
    rw [← List.take_append_drop (payloadLength f) bs, decodeAfterWord_append f _ _ hpay] at h
    split at h
    next j hj =>
      cases h
      exact ⟨_, (List.take_append_drop _ _).symm, hpay, hj⟩
    · cases h

theorem payloadLength_of_op {f : Fields} {o : Opcode} (h : f.op = o.code) :
    payloadLength f = o.payloadBuffers * f.l.toNat * f.a.toNat := by
  rw [payloadLength, h, Opcode.ofCode_code]

/-! ## Words without a payload -/

/-- A value whose bits from `k` up are 0 is its low `k` bits. -/
theorem setWidth_extractLsb'_of_high_zero {w k n : Nat} {v : BitVec w} (hw : k + n = w)
    (h : v.extractLsb' k n = 0#n) : (v.extractLsb' 0 k).setWidth w = v := by
  apply BitVec.eq_of_getLsbD_eq
  intro i hi
  have hbit := congrArg (·.getLsbD (i - k)) h
  simp only [BitVec.getLsbD_extractLsb', BitVec.getLsbD_zero] at hbit
  simp only [BitVec.getLsbD_setWidth, BitVec.getLsbD_extractLsb']
  grind

theorem ofBool_getLsbD_zero {w : Nat} (v : BitVec w) : BitVec.ofBool (v.getLsbD 0) = v.extractLsb' 0 1 := by
  apply BitVec.eq_of_getLsbD_eq
  intro i hi
  obtain rfl : i = 0 := by omega
  simp

/-- With every unused field 0 the operands say the whole word (R73, R78). -/
theorem fields_assembleOperands {o : Opcode} {f : Fields} (pay : List Byte) (ho : o.payloadBuffers = 0)
    (hop : f.op = o.code) (hzero : unusedFieldsZero o f = true) :
    (assembleOperands o f pay).wellFormed = true ∧ (assembleOperands o f pay).fields = f ∧
      (assembleOperands o f pay).payload = [] := by
  obtain ⟨op, p, c, l, rsv, a, v⟩ := f
  cases o with
  | mset | mreset | mtoggle | overwrite | mstamp => cases ho
  | get | toggle | rdseg | wrseg | readbuf | transmit =>
    simp_all [unusedFieldsZero, assembleOperands, Instr.wellFormed, Instr.fields, Instr.payload, Fields.bare]
  | set =>
    have hv : (BitVec.ofBool (v.getLsbD 0)).setWidth 16 = v := by
      rw [ofBool_getLsbD_zero, setWidth_extractLsb'_of_high_zero (n := 15) rfl (by simp_all [unusedFieldsZero])]
    simp_all [unusedFieldsZero, assembleOperands, Instr.wellFormed, Instr.fields, Instr.payload, Fields.bare]
  | fill =>
    have hv : (v.extractLsb' 0 8).setWidth 16 = v :=
      setWidth_extractLsb'_of_high_zero (n := 8) rfl (by simp_all [unusedFieldsZero])
    simp_all [unusedFieldsZero, assembleOperands, Instr.wellFormed, Instr.fields, Instr.payload, Fields.bare]

/-! ## Words with a payload -/

/-- The word of `o` uses `L` and `A` only, and these as R74 asks. -/
def Fields.DescribesBuffer (o : Opcode) (f : Fields) : Prop :=
  f = { Fields.bare o with l := f.l, a := f.a } ∧ (f.a = 0#1 → f.l = 0#8)

theorem Fields.describesBuffer {o : Opcode} {f : Fields} (ho : o.payloadBuffers ≠ 0) (hop : f.op = o.code)
    (hzero : unusedFieldsZero o f = true) (hlen : f.a = 0#1 → f.l = 0#8) : f.DescribesBuffer o := by
  refine ⟨?_, hlen⟩
  obtain ⟨op, p, c, l, rsv, a, v⟩ := f
  cases o with
  | get | set | toggle | fill | rdseg | wrseg | readbuf | transmit => exact absurd rfl ho
  | mset | mreset | mtoggle | overwrite | mstamp => simp_all [unusedFieldsZero, Fields.bare]

theorem Fields.DescribesBuffer.withBuffer_none {o : Opcode} {f : Fields} (h : f.DescribesBuffer o) (ha : f.a = 0#1) :
    Fields.withBuffer o none = f := by
  obtain ⟨hf, hlen⟩ := h
  rw [hf, hlen ha, ha]
  rfl

theorem Fields.DescribesBuffer.withBuffer_some {o : Opcode} {f : Fields} (h : f.DescribesBuffer o) (ha : f.a = 1#1)
    {b : List Byte} (hb : b.length = f.l.toNat) : Fields.withBuffer o (some b) = f := by
  rw [h.1, ha]
  simp [Fields.withBuffer, hb]

/-- The operand read from a one-buffer word and its payload spells them (R76). -/
theorem Fields.DescribesBuffer.encodes_oneBuffer {o : Opcode} {f : Fields} {pay : List Byte} (h : f.DescribesBuffer o)
    (hpay : pay.length = 1 * f.l.toNat * f.a.toNat) :
    bufferFits (oneBuffer f pay) = true ∧ Fields.withBuffer o (oneBuffer f pay) = f ∧
      (oneBuffer f pay).getD [] = pay := by
  obtain ha | ha := BitVec.eq_zero_or_eq_one f.a
  · have hnil : pay = [] := by simpa [ha] using hpay
    simp [oneBuffer, ha, hnil, bufferFits, h.withBuffer_none ha]
  · have hb : pay.length = f.l.toNat := by simpa [ha] using hpay
    have hfits : pay.length < 256 := hb ▸ f.l.isLt
    simp [oneBuffer, ha, bufferFits, h.withBuffer_some ha hb, hfits]

/-- The operand read from an MSTAMP's word and payload spells them (R76). -/
theorem Fields.DescribesBuffer.encodes_twoBuffers {f : Fields} {pay : List Byte} (h : f.DescribesBuffer .mstamp)
    (hpay : pay.length = 2 * f.l.toNat * f.a.toNat) :
    bufferPairFits (twoBuffers f pay) = true ∧ (Instr.mstamp (twoBuffers f pay)).fields = f ∧
      (Instr.mstamp (twoBuffers f pay)).payload = pay := by
  obtain ha | ha := BitVec.eq_zero_or_eq_one f.a
  · have hnil : pay = [] := by simpa [ha] using hpay
    simp [twoBuffers, ha, hnil, bufferPairFits, Instr.fields, Instr.payload, h.withBuffer_none ha]
  · have hlen : pay.length = 2 * f.l.toNat := by simpa [ha] using hpay
    have hmask : (pay.take f.l.toNat).length = f.l.toNat := List.length_take_of_le (by omega)
    have hl : f.l.toNat < 256 := f.l.isLt
    simp [twoBuffers, ha, bufferPairFits, Instr.fields, Instr.payload, h.withBuffer_some ha hmask]
    omega

/-! ## One spelling per command -/

/-- A word and a payload that pass the decode checks are those of the command they spell. -/
theorem fields_of_decodeFields {f : Fields} {pay : List Byte} {i : Instr} (h : decodeFields f pay = .ok i)
    (hpay : pay.length = payloadLength f) : i.wellFormed = true ∧ i.fields = f ∧ i.payload = pay := by
  obtain ⟨o, hop, hzero, hlen, rfl⟩ := decodeFields_eq_ok_iff.mp h
  rw [payloadLength_of_op hop] at hpay
  cases o with
  | mset | mreset | mtoggle | overwrite => exact (Fields.describesBuffer (by decide) hop hzero hlen).encodes_oneBuffer hpay
  | mstamp => exact (Fields.describesBuffer (by decide) hop hzero hlen).encodes_twoBuffers hpay
  | get | set | toggle | fill | rdseg | wrseg | readbuf | transmit =>
    obtain rfl : pay = [] := by simpa [Opcode.payloadBuffers] using hpay
    exact fields_assembleOperands [] rfl hop hzero

/-- Settles O1: the word announces its payload (`payloadLength_fields`) and passes the checks as the command it spells
(`decodeFields_fields`). -/
theorem decodeOfEncodeIsTheCommand : Obligations.DecodeOfEncodeIsTheCommand :=
  fun _ rest hwf => decode_encode hwf rest

/-- Settles O2: the stream is a word, its payload and the rest, and the decode checks leave the command no other word or
payload. -/
theorem decodedBytesAreTheEncoding : Obligations.DecodedBytesAreTheEncoding := by
  intro bs rest i h
  rcases decode_cases bs with ⟨hshort, -⟩ | ⟨w, tail, rfl, hword⟩
  · rw [hshort] at h
    cases h
  · rw [hword] at h
    obtain ⟨pay, rfl, hpay, hok⟩ := decodeAfterWord_eq_command h
    obtain ⟨hwf, hfields, hpayload⟩ := fields_of_decodeFields hok hpay
    refine ⟨hwf, ?_⟩
    rw [encode, hfields, hpayload, Fields.toWord_ofWord, List.append_assoc]

theorem decode_of_eq_encode {bs : List Byte} {i : Instr} (hbytes : bs = encode i) (hwf : i.wellFormed = true) :
    decode bs = .command i [] := by
  rw [hbytes, ← List.append_nil (encode i), decode_encode hwf]

/-- Settles O3: each row's bytes are the encoding of its command. -/
theorem workedEncodingsDecode : Obligations.WorkedEncodingsDecode := by
  refine ⟨?_, ?_, ?_, ?_, ?_, ?_, ?_, ?_, ?_, ?_, ?_, ?_⟩ <;> exact decode_of_eq_encode (by decide) rfl

end Sys2Proof

/-! PROOF. The opcode table's (mask, match) rows and the decode checks are one condition on a word (R73, R74, R80), and
what the decoder and a step make of a word with its payload (R75, R224). -/

namespace Sys2Proof

/-! ## The rows of the opcode table, field by field -/

/-- The bitwise and of two words, field by field. -/
def Fields.and (f g : Fields) : Fields where
  op := f.op &&& g.op
  p := f.p &&& g.p
  c := f.c &&& g.c
  l := f.l &&& g.l
  rsv := f.rsv &&& g.rsv
  a := f.a &&& g.a
  v := f.v &&& g.v

theorem Fields.ofWord_and (w x : BitVec 64) : Fields.ofWord (w &&& x) = (Fields.ofWord w).and (Fields.ofWord x) := by
  simp only [Fields.ofWord, Fields.and, BitVec.extractLsb'_and]

theorem Fields.ofWord_injective : Function.Injective Fields.ofWord :=
  Function.LeftInverse.injective Fields.toWord_ofWord

/-- The bits of a word that an opcode fixes: `OP`, `RSV`, and every bit that is no operand (R73, R79). -/
def Opcode.mask : Opcode → Fields
  | .get | .toggle => ⟨.allOnes 8, 0#16, .allOnes 8, .allOnes 8, .allOnes 7, .allOnes 1, .allOnes 16⟩
  | .set => ⟨.allOnes 8, 0#16, .allOnes 8, .allOnes 8, .allOnes 7, .allOnes 1, BitVec.allOnes 16 <<< 1⟩
  | .fill => ⟨.allOnes 8, .allOnes 16, .allOnes 8, .allOnes 8, .allOnes 7, .allOnes 1, BitVec.allOnes 16 <<< 8⟩
  | .mset | .mreset | .mtoggle | .overwrite | .mstamp =>
    ⟨.allOnes 8, .allOnes 16, .allOnes 8, 0#8, .allOnes 7, 0#1, .allOnes 16⟩
  | .rdseg => ⟨.allOnes 8, 0#16, 0#8, .allOnes 8, .allOnes 7, .allOnes 1, .allOnes 16⟩
  | .wrseg => ⟨.allOnes 8, 0#16, 0#8, .allOnes 8, .allOnes 7, .allOnes 1, 0#16⟩
  | .readbuf | .transmit => ⟨.allOnes 8, .allOnes 16, .allOnes 8, .allOnes 8, .allOnes 7, .allOnes 1, .allOnes 16⟩

/-- The operations in the order of the opcode table. -/
def Opcode.all : List Opcode :=
  [.get, .set, .toggle, .fill, .mset, .mreset, .mtoggle, .rdseg, .wrseg, .overwrite, .mstamp, .readbuf, .transmit]

theorem Opcode.mem_all (o : Opcode) : o ∈ Opcode.all := by
  cases o <;> decide

/-- Each row is its operation's fixed bits and its bare word. -/
theorem opcodeRows_eq : Claims.opcodeRows = Opcode.all.map fun o => (o.mask.toWord, (Fields.bare o).toWord) := by
  decide

/-- The bits from `k` up are 0, said with a mask and said with an extract. -/
theorem and_shiftLeft_allOnes_eq_zero_iff {w k n : Nat} (v : BitVec w) (h : k + n = w) :
    v &&& (BitVec.allOnes w <<< k) = 0#w ↔ v.extractLsb' k n = 0#n := by
  simp only [BitVec.eq_of_getLsbD_eq_iff, BitVec.getLsbD_and, BitVec.getLsbD_shiftLeft, BitVec.getLsbD_allOnes,
    BitVec.getLsbD_extractLsb', BitVec.getLsbD_zero]
  constructor
  · intro hv i hi
    have hbit := hv (k + i) (by omega)
    grind
  · intro hv i hi
    have hbit := hv (i - k)
    grind

/-- A word has its operation's fixed bits exactly when `OP` is its code and every unused field is 0 (R73). -/
theorem and_mask_eq_bare_iff (o : Opcode) (f : Fields) :
    f.and o.mask = Fields.bare o ↔ f.op = o.code ∧ unusedFieldsZero o f = true := by
  have hset := and_shiftLeft_allOnes_eq_zero_iff f.v (show 1 + 15 = 16 from rfl)
  have hfill := and_shiftLeft_allOnes_eq_zero_iff f.v (show 8 + 8 = 16 from rfl)
  cases o <;>
    simp only [Fields.and, Opcode.mask, Fields.bare, unusedFieldsZero, Fields.mk.injEq, BitVec.and_allOnes,
      BitVec.and_zero, Bool.and_eq_true, beq_iff_eq, true_and, and_true, hset, hfill] <;> tauto

theorem matches_opcodeRow_iff (w : BitVec 64) :
    (∃ row ∈ Claims.opcodeRows, w &&& row.1 = row.2) ↔
      ∃ o, (Fields.ofWord w).op = Opcode.code o ∧ unusedFieldsZero o (Fields.ofWord w) = true := by
  simp only [opcodeRows_eq, List.mem_map, exists_exists_eq_and, Opcode.mem_all, true_and,
    ← Fields.ofWord_injective.eq_iff, Fields.ofWord_and, Fields.ofWord_toWord, and_mask_eq_bare_iff]

/-! ## A word and its payload -/

/-- The decode checks pass the legal words (R73, R74, R80). -/
theorem decodeFields_ok_iff_wordLegal (w : BitVec 64) (pay : List Byte) :
    (∃ i, decodeFields (Fields.ofWord w) pay = .ok i) ↔ Claims.WordLegal w := by
  have ha : (Fields.ofWord w).a = 0#1 ↔ w.getLsbD 16 = false := by
    simp [Fields.ofWord, BitVec.eq_of_getLsbD_eq_iff]
  simp only [decodeFields_eq_ok_iff, Claims.WordLegal, matches_opcodeRow_iff, ← ha]
  constructor
  · rintro ⟨i, o, hop, hzero, hlen, -⟩
    exact ⟨⟨o, hop, hzero⟩, hlen⟩
  · rintro ⟨⟨o, hop, hzero⟩, hlen⟩
    exact ⟨_, o, hop, hzero, hlen, rfl⟩

/-- `k * L * A` is read off the word, whether its opcode is assigned or not (R75, R79). -/
theorem payloadBytes_eq_payloadLength (w : BitVec 64) : Claims.payloadBytes w = payloadLength (Fields.ofWord w) := by
  cases ho : Opcode.ofCode (Fields.ofWord w).op with
  | none =>
    have hne (o : Opcode) : w.extractLsb' 56 8 ≠ o.code := fun h => by
      rw [show (Fields.ofWord w).op = o.code from h, Opcode.ofCode_code] at ho
      cases ho
    have hmset : w.extractLsb' 56 8 ≠ 0x05#8 := hne .mset
    have hmreset : w.extractLsb' 56 8 ≠ 0x06#8 := hne .mreset
    have hmtoggle : w.extractLsb' 56 8 ≠ 0x07#8 := hne .mtoggle
    have hoverwrite : w.extractLsb' 56 8 ≠ 0x0A#8 := hne .overwrite
    have hmstamp : w.extractLsb' 56 8 ≠ 0x0B#8 := hne .mstamp
    simp [Claims.payloadBytes, payloadLength, ho, hmset, hmreset, hmtoggle, hoverwrite, hmstamp]
  | some o =>
    have hop : (Fields.ofWord w).op = o.code := Opcode.code_of_ofCode ho
    rw [payloadLength_of_op hop, Claims.payloadBytes, show w.extractLsb' 56 8 = o.code from hop]
    cases o <;> rfl

/-- A word with its payload is a command or illegal as the opcode table says, and the bytes after the payload are left
(R75, R80). -/
theorem decode_word_payload {w : BitVec 64} {pay : List Byte} (rest : List Byte)
    (h : pay.length = Claims.payloadBytes w) :
    (Claims.WordLegal w ∧ ∃ i, decode (bytesOfWord w ++ pay ++ rest) = .command i rest) ∨
    (¬ Claims.WordLegal w ∧ ∃ why, decode (bytesOfWord w ++ pay ++ rest) = .illegal why rest) := by
  rw [payloadBytes_eq_payloadLength] at h
  rw [List.append_assoc, decode_bytesOfWord, decodeAfterWord_append _ _ _ h, ← decodeFields_ok_iff_wordLegal w pay]
  cases decodeFields (Fields.ofWord w) pay with
  | ok i => exact .inl ⟨⟨i, rfl⟩, i, rfl⟩
  | error why => exact .inr ⟨nofun, why, rfl⟩

/-- Settles O4: the two outcomes of `decode_word_payload` exclude each other. -/
theorem legalWordsAreTheOpcodeTable : Obligations.LegalWordsAreTheOpcodeTable := by
  intro w pay rest h
  rcases decode_word_payload rest h with ⟨hlegal, i, hi⟩ | ⟨hillegal, why, hwhy⟩
  · rw [hi]; simp [hlegal]
  · rw [hwhy]; simp [hillegal]

/-- Settles O5: a complete payload gives one of the outcomes of `decode_word_payload`, a short one gives neither. -/
theorem commandLengthComesFromTheWord : Obligations.CommandLengthComesFromTheWord := by
  intro w pay rest
  constructor
  · intro h
    exact (decode_word_payload rest h).imp And.right And.right
  · intro h
    rw [payloadBytes_eq_payloadLength] at h
    rw [decode_bytesOfWord, decodeAfterWord_short _ _ h]

end Sys2Proof

namespace Sys2Proof.Machine

/-! ## The step on an illegal word -/

theorem State.checked_status_ne_illegalCommand {s t effect : State} {check : Option Status}
    (h : s.checked check effect = .next t) (hcheck : ∀ e, check = some e → e ≠ .illegalCommand)
    (heffect : effect.resp.status ≠ .illegalCommand) : t.resp.status ≠ .illegalCommand := by
  rcases State.checked_next h with ⟨e, he, rfl⟩ | ⟨-, rfl⟩
  · exact hcheck e he
  · exact heffect

/-- No command finishes with the status of an illegal word (R224). -/
theorem exec_status_ne_illegalCommand {i : Instr} {s t : State} (h : exec i s = .next t) :
    t.resp.status ≠ .illegalCommand := by
  cases i with
  | fill v => cases h; nofun
  | readbuf | transmit => cases h; nofun
  | get p | set p b | toggle p =>
    refine State.checked_status_ne_illegalCommand h (fun e he => ?_) (by nofun)
    rw [checkPin_eq he]; nofun
  | rdseg p c | wrseg p c v =>
    refine State.checked_status_ne_illegalCommand h (fun e he => ?_) (by nofun)
    rw [checkSegment_eq he]; nofun
  | mset m | mreset m | mtoggle m | overwrite m =>
    refine State.checked_status_ne_illegalCommand h (fun e he => ?_) (by nofun)
    rcases checkPayload_eq he with rfl | rfl <;> nofun
  | mstamp mv =>
    refine State.checked_status_ne_illegalCommand h (fun e he => ?_) (by nofun)
    rcases checkPayloadPair_eq he with rfl | rfl <;> nofun

/-- Settles O8: the decoder finds an illegal word exactly where the table has none, and a decoded command has another
status. -/
theorem illegalWordAnswersIllegalCommand : Obligations.IllegalWordAnswersIllegalCommand := by
  intro s w pay rest hready hpay hport
  rcases decode_word_payload rest hpay with ⟨hlegal, i, hi⟩ | ⟨hillegal, why, hwhy⟩
  · obtain ⟨t, ht⟩ := exec_answers i (s.accept rest)
    have hstep : step s = .next t.deliver := step_of_command hready (by rw [hport, hi]) ht
    exact ⟨fun hillegal => absurd hlegal hillegal, fun _ => ⟨_, hstep, by simpa using exec_status_ne_illegalCommand ht⟩⟩
  · refine ⟨fun _ => ?_, fun hlegal => absurd hlegal hillegal⟩
    simp only [step_of_ready hready, hport, hwhy]
    rfl

end Sys2Proof.Machine

/-! PROOF. The response word (R81, R220), the numbers and buffers the assembler takes (R82, R84), and the
pseudo-instructions (R83). -/

namespace Sys2Proof.Machine

/-! ## The response word -/

theorem Status.code_lt (e : Status) : e.code.toNat < 5 := by
  cases e <;> decide

theorem Response.extractLsb'_word_status (r : Response) : r.word.extractLsb' 24 8 = r.status.code := by
  rw [Response.word, BitVec.extractLsb'_append_eq_of_le (by decide), BitVec.extractLsb'_append_eq_of_le (by decide)]
  exact BitVec.extractLsb'_eq_self

theorem Response.extractLsb'_word_zeros (r : Response) : r.word.extractLsb' 16 8 = 0#8 := by
  rw [Response.word, BitVec.extractLsb'_append_eq_of_le (by decide), BitVec.extractLsb'_append_eq_of_add_le (by decide)]
  rfl

theorem Response.extractLsb'_word_data (r : Response) : r.word.extractLsb' 0 16 = r.data := by
  rw [Response.word, BitVec.extractLsb'_append_eq_of_add_le (by decide)]
  exact BitVec.extractLsb'_eq_self

/-- Settles O57: the three fields of the word, and the table of codes. -/
theorem responseWordLayout : Obligations.ResponseWordLayout :=
  ⟨fun r => ⟨r.extractLsb'_word_status, r.extractLsb'_word_zeros, r.extractLsb'_word_data⟩, rfl, rfl, rfl, rfl, rfl,
    Status.code_lt⟩

/-! ## Number operands -/

theorem map_fitField {α : Type} (w x : Nat) (g : BitVec w → α) :
    (fitField w x).map g = if x < 2 ^ w then some (g (BitVec.ofNat w x)) else none := by
  unfold fitField
  split <;> rfl

theorem bind_fitField {α : Type} (w x : Nat) (g : BitVec w → Option α) :
    (fitField w x).bind g = if x < 2 ^ w then g (BitVec.ofNat w x) else none := by
  unfold fitField
  split <;> rfl

theorem map_fitBit {α : Type} (b : Nat) (g : Bool → α) :
    (fitBit b).map g = if b < 2 then some (g (decide (b = 1))) else none := by
  match b with
  | 0 | 1 => rfl
  | b + 2 => simp [fitBit]

/-! ## Buffer operands -/

theorem length_fitBytes {xs : List Nat} {bs : List Byte} (h : fitBytes xs = some bs) : bs.length = xs.length := by
  induction xs generalizing bs with
  | nil => cases h; rfl
  | cons x xs ih =>
    unfold fitBytes at h
    split at h
    next b cs hb hcs => cases h; simp [ih hcs]
    · cases h

theorem bufferFits_of_fitBuffer {m : AsmBuffer} {b : Option (List Byte)} (h : fitBuffer m = some b) :
    bufferFits b = true := by
  cases m with
  | none => cases h; rfl
  | some xs =>
    simp only [fitBuffer] at h
    split at h
    next hlen =>
      obtain ⟨bs, hbs, rfl⟩ := Option.map_eq_some_iff.mp h
      simpa [bufferFits, length_fitBytes hbs] using hlen
    · cases h

theorem bufferPairFits_of_fitBufferPair {m v : AsmBuffer} {b : Option (List Byte × List Byte)}
    (h : fitBufferPair m v = some b) : bufferPairFits b = true := by
  unfold fitBufferPair at h
  split at h
  · cases h; rfl
  next mb vb hm hv =>
    split at h
    next hlen =>
      cases h
      simpa [bufferPairFits, bufferFits, hlen] using bufferFits_of_fitBuffer hm
    · cases h
  · cases h

/-! ## What the assembler takes and rejects -/

/-- What the assembler emits can be encoded (R82, R84). -/
theorem wellFormed_of_assemble {c : AsmCommand} {i : Instr} (h : c.assemble = some i) : i.wellFormed = true := by
  cases c with
  | get p | toggle p | fill v =>
    obtain ⟨x, -, rfl⟩ := Option.map_eq_some_iff.mp h
    rfl
  | set p b | rdseg s c =>
    obtain ⟨x, -, hx⟩ := Option.bind_eq_some_iff.mp h
    obtain ⟨y, -, rfl⟩ := Option.map_eq_some_iff.mp hx
    rfl
  | wrseg s c v =>
    obtain ⟨x, -, hx⟩ := Option.bind_eq_some_iff.mp h
    obtain ⟨y, -, hy⟩ := Option.bind_eq_some_iff.mp hx
    obtain ⟨z, -, rfl⟩ := Option.map_eq_some_iff.mp hy
    rfl
  | mset m | mreset m | mtoggle m | overwrite m =>
    obtain ⟨b, hb, rfl⟩ := Option.map_eq_some_iff.mp h
    exact bufferFits_of_fitBuffer hb
  | mstamp m v =>
    obtain ⟨b, hb, rfl⟩ := Option.map_eq_some_iff.mp h
    exact bufferPairFits_of_fitBufferPair hb
  | readbuf | transmit => cases h; rfl

theorem assemble_get (p : Nat) :
    (AsmCommand.get p).assemble = if p < 65536 then some (.get (BitVec.ofNat 16 p)) else none :=
  map_fitField 16 p _

theorem assemble_rdseg (p c : Nat) :
    (AsmCommand.rdseg p c).assemble =
      if p < 65536 ∧ c < 256 then some (.rdseg (BitVec.ofNat 16 p) (BitVec.ofNat 8 c)) else none := by
  rw [AsmCommand.assemble, bind_fitField, map_fitField, ite_and]
  rfl

/-- Settles O59: each number's field decides by itself (R84), and a pin or count that fits its field but not the block
reaches the command's own check (R100, R159). -/
theorem assemblerRejectsWhatDoesNotFit : Obligations.AssemblerRejectsWhatDoesNotFit := by
  refine ⟨assemble_get, fun p => map_fitField 16 p _, fun p b => ?_, fun v => map_fitField 8 v _, assemble_rdseg,
    fun p c v => ?_, fun c i => wellFormed_of_assemble, fun s p hp hrange => ?_, fun s p hp => ?_⟩
  · rw [AsmCommand.assemble, bind_fitField, map_fitBit, ite_and]
    rfl
  · rw [AsmCommand.assemble, bind_fitField, bind_fitField, map_fitField, ite_and, ite_and]
    rfl
  · have hpin : (BitVec.ofNat 16 p).toNat = p := Nat.mod_eq_of_lt hp
    refine ⟨_, s.raise .pinOutOfRange, by rw [assemble_get, if_pos hp], ?_, rfl⟩
    rw [exec, execGet, checkPin_some (by rwa [hpin]), State.checked_some]
  · refine ⟨_, s.raise .pinOutOfRange, by rw [assemble_rdseg, if_pos ⟨hp, by decide⟩], ?_, rfl⟩
    rw [exec, execRdseg, checkSegment_some (.inl (by decide)), State.checked_some]

/-! ## TOGGLEALL -/

theorem fitBytes_replicate {x : Nat} (h : x < 256) (n : Nat) :
    fitBytes (List.replicate n x) = some (List.replicate n (BitVec.ofNat 8 x)) := by
  have hx : fitField 8 x = some (BitVec.ofNat 8 x) := if_pos h
  induction n with
  | zero => rfl
  | succ n ih => simp [List.replicate_succ, fitBytes, ih, hx]

/-- A block has at most 255 registers (R5), so that TOGGLEALL's mask fits `L`. -/
theorem assembleAll_toggleall {n : Nat} (h : n < 256) :
    assembleAll (AsmPseudo.expand n .toggleall) = some [.mtoggle (some (List.replicate n 0xFF#8))] := by
  simp [AsmPseudo.expand, assembleAll, AsmCommand.assemble, fitBuffer, h, fitBytes_replicate]

theorem runCommands_singleton {i : Instr} {s t : State} (h : exec i s = .next t) : runCommands [i] s = .next t := by
  simp only [runCommands, h]

theorem exec_mtoggle_attached {s : State} {mask : List Byte} (h : mask.length = s.cfg.count) :
    exec (.mtoggle (some mask)) s = .next (s.masked (fun old m => old ^^^ m) mask).done := by
  rw [exec, execMtoggle, State.execMasked, checkPayload_none h, State.checked_none, Option.getD_some]

/-- A mask of `N` bytes 0xFF inverts every pin (R83, R132). -/
theorem State.readPin_masked_ones (s : State) {p : Nat} (hp : p < 8 * s.cfg.count) :
    (s.masked (fun old m => old ^^^ m) (List.replicate s.cfg.count 0xFF#8)).buf.readPin p = !s.buf.readPin p := by
  have hbyte : p / 8 < s.cfg.count := by omega
  have hones : (BitVec.allOnes 8).getLsbD (p % 8) = true := by
    rw [BitVec.getLsbD_allOnes, decide_eq_true (Nat.mod_lt p (by decide))]
  calc (s.masked (fun old m => old ^^^ m) (List.replicate s.cfg.count 0xFF#8)).buf.readPin p
    _ = (s.buf.read (p / 8) ^^^ BitVec.allOnes 8).getLsbD (p % 8) := by
      rw [Memory.readPin, State.read_masked, if_pos hbyte, bufferByte, List.getD_replicate _ hbyte]
      rfl
    _ = !s.buf.readPin p := by rw [BitVec.getLsbD_xor, hones, Bool.xor_true, Memory.readPin]

/-- Settles O58: the table of R83 row by row; TOGGLEALL is one MTOGGLE whose mask has the block's length. -/
theorem pseudoInstructionsExpand : Obligations.PseudoInstructionsExpand := by
  refine ⟨fun n => ⟨rfl, rfl, rfl, fun _ _ => rfl, fun _ => rfl, fun _ _ _ => rfl, fun _ _ => rfl⟩, fun s => ?_⟩
  have hcount : s.cfg.count < 256 := s.cfg.n.isLt
  exact ⟨_, _, assembleAll_toggleall hcount, runCommands_singleton (exec_mtoggle_attached List.length_replicate), rfl,
    fun p => s.readPin_masked_ones⟩

end Sys2Proof.Machine

/-! PROOF. The statements of 40_bit_ops.md: GET, SET and TOGGLE on a legal pin, past `MAXBIT`, and as words; first, for
every opcode, the words without a payload and the words that set an unused bit (R73, R78). -/

namespace Sys2Proof

/-! ## Words of an opcode -/

/-- A command without a payload is decoded from its word alone (R75, R78). -/
theorem decode_word {i : Instr} (hwf : i.wellFormed = true) (hpay : i.payload = []) (rest : List Byte) :
    decode (bytesOfWord i.fields.toWord ++ rest) = .command i rest := by
  have h := decode_encode hwf rest
  rwa [encode, hpay, List.append_nil] at h

theorem Opcode.code_injective : Function.Injective Opcode.code := fun o o' h =>
  Option.some.inj (by rw [← Opcode.ofCode_code o, h, Opcode.ofCode_code])

/-- The bits below `OP` that an opcode leaves unused (R73). -/
def Opcode.unusedBits (o : Opcode) : Fields := { o.mask with op := 0#8 }

/-- A word with its operation's fixed bits has no unused bit set. -/
theorem and_unusedBits_eq_zero {o : Opcode} {w : BitVec 64} (h : (Fields.ofWord w).and o.mask = Fields.bare o) :
    w &&& o.unusedBits.toWord = 0#64 := by
  apply Fields.ofWord_injective
  rw [Fields.ofWord_and, Fields.ofWord_toWord]
  calc (Fields.ofWord w).and o.unusedBits
    _ = { (Fields.ofWord w).and o.mask with op := 0#8 } := by simp [Fields.and, Opcode.unusedBits]
    _ = { Fields.bare o with op := 0#8 } := by rw [h]
    _ = Fields.ofWord 0#64 := by simp [Fields.bare, Fields.ofWord]

/-- A word that sets a bit its opcode does not use is illegal, and its payload is consumed (R73, R75). -/
theorem illegalOutside_unusedBits (o : Opcode) : Claims.IllegalOutside o.code o.unusedBits.toWord := by
  intro w pay rest hop hbit hpay
  rcases decode_word_payload rest hpay with ⟨⟨hrow, -⟩, -⟩ | ⟨-, hillegal⟩
  · obtain ⟨o', hop', hzero⟩ := (matches_opcodeRow_iff w).mp hrow
    obtain rfl : o' = o := Opcode.code_injective (hop'.symm.trans hop)
    exact absurd (and_unusedBits_eq_zero ((and_mask_eq_bare_iff o' _).mpr ⟨hop', hzero⟩)) hbit
  · exact hillegal

end Sys2Proof

namespace Sys2Proof.Machine

/-! ## One pin of BUF -/

/-- A bit zero-extended, as GET returns it and as SET's word carries it (R100, R103). -/
theorem setWidth_ofBool (b : Bool) : (BitVec.ofBool b).setWidth 16 = if b then 1#16 else 0#16 := by
  cases b <;> rfl

theorem Memory.read_writePin_other (m : Memory) {p a : Nat} (b : Bool) (h : a ≠ p / 8) :
    (m.writePin p b).read a = m.read a :=
  m.read_write_other _ h

theorem Memory.readPin_togglePin (m : Memory) (p q : Nat) :
    (m.togglePin p).readPin q = if q = p then !m.readPin q else m.readPin q := by
  rw [Memory.togglePin, Memory.readPin_writePin]
  split
  next h => rw [h]
  · rfl

/-! ## The pin commands -/

/-- A command that passes its check rewrites `BUF` and answers OK (R227). -/
theorem State.rewriteBuf_of_pass {s : State} {check : Cfg → Option Status} {g : Cfg → Memory → Memory}
    (h : check s.cfg = none) : s.rewriteBuf check g = .next { s with buf := g s.cfg s.buf }.done := by
  rw [State.rewriteBuf, h, State.checked_none]

/-- GET of a legal pin answers its bit, zero-extended (R100). -/
theorem exec_get_of_le {s : State} {pin : PinIndex} (h : pin.toNat ≤ s.cfg.maxBit) :
    exec (.get pin) s =
      .next { s with resp := Claims.answer .ok (if s.buf.readPin pin.toNat then 1#16 else 0#16) } := by
  rw [exec, execGet, checkPin_none h, State.checked_none, setWidth_ofBool]
  rfl

theorem exec_set_of_le {s : State} {pin : PinIndex} (bit : Bool) (h : pin.toNat ≤ s.cfg.maxBit) :
    exec (.set pin bit) s = .next { s with buf := s.buf.writePin pin.toNat bit }.done := by
  rw [exec_set, State.rewriteBuf_of_pass (checkPin_none h)]

theorem exec_toggle_of_le {s : State} {pin : PinIndex} (h : pin.toNat ≤ s.cfg.maxBit) :
    exec (.toggle pin) s = .next { s with buf := s.buf.togglePin pin.toNat }.done := by
  rw [exec_toggle, State.rewriteBuf_of_pass (checkPin_none h)]

/-- Past `MAXBIT` each of the three raises `PinOutOfRange` (R100, R103, R106). -/
theorem exec_pin_of_lt {s : State} {pin : PinIndex} {bit : Bool} (h : s.cfg.maxBit < pin.toNat) {i : Instr}
    (hi : i ∈ [Instr.get pin, .set pin bit, .toggle pin]) : exec i s = .next (s.raise .pinOutOfRange) := by
  have hraise (effect : State) : s.checked (checkPin s.cfg pin) effect = .next (s.raise .pinOutOfRange) := by
    rw [checkPin_some h, State.checked_some]
  simp only [List.mem_cons, List.not_mem_nil, or_false] at hi
  rcases hi with rfl | rfl | rfl <;> exact hraise _

theorem runCommands_cons {i : Instr} {is : List Instr} {s t : State} (h : exec i s = .next t) :
    runCommands (i :: is) s = runCommands is t := by
  simp only [runCommands, h]

/-! ## The obligations -/

/-- Settles O19: all that a failed check does is raise its status. -/
theorem failingPinCommandHasNoSideEffect : Obligations.FailingPinCommandHasNoSideEffect :=
  fun _ _ _ h _ hi => ⟨_, exec_pin_of_lt h hi, rfl, rfl, fun _ => rfl, rfl⟩

/-- Settles O15: the two sides of the range check, and the words of the opcode. -/
theorem getReturnsThePin : Obligations.GetReturnsThePin :=
  ⟨fun _ _ => exec_get_of_le, fun _ _ h => exec_pin_of_lt (bit := false) h (by simp),
    fun pin => decode_word (i := .get pin) rfl rfl, illegalOutside_unusedBits .get⟩

/-- Settles O16: the frame on pins is the law of `writePin`. -/
theorem setWritesOnePin : Obligations.SetWritesOnePin := by
  refine ⟨fun s pin bit h => ?_, fun _ _ bit h => exec_pin_of_lt (bit := bit) h (by simp), fun pin bit rest => ?_,
    illegalOutside_unusedBits .set⟩
  · exact ⟨_, exec_set_of_le bit h, rfl, fun q => s.buf.readPin_writePin _ q bit,
      fun _ => s.buf.read_writePin_other bit⟩
  · have hword := decode_word (i := .set pin bit) rfl rfl rest
    rwa [Instr.fields, setWidth_ofBool] at hword

/-- Settles O17: the frame on pins is the law of `togglePin`. -/
theorem toggleInvertsOnePin : Obligations.ToggleInvertsOnePin := by
  refine ⟨fun s pin h => ?_, fun _ _ h => exec_pin_of_lt (bit := false) h (by simp),
    fun pin => decode_word (i := .toggle pin) rfl rfl, illegalOutside_unusedBits .toggle⟩
  exact ⟨_, exec_toggle_of_le h, rfl, s.buf.readPin_togglePin _, fun _ => s.buf.read_writePin_other _⟩

/-- Settles O18: SET leaves `CFG`, so the pin passes GET's check too, and GET reads what was written. -/
theorem setThenGetReturnsTheBit : Obligations.SetThenGetReturnsTheBit := by
  intro s pin bit h
  have hget := exec_get_of_le (s := { s with buf := s.buf.writePin pin.toNat bit }.done) h
  refine ⟨_, (runCommands_cons (exec_set_of_le bit h)).trans (runCommands_singleton hget), ?_⟩
  rw [State.done_buf, Memory.readPin_writePin, if_pos rfl]

end Sys2Proof.Machine

/-! PROOF. The statements of 41_bulk_masked_ops.md: the words of each command, the masked commands pin by pin, FILL,
READBUF, OVERWRITE and MSTAMP, and the laws between masked commands (R121, R129, R148). -/

namespace Sys2Proof

/-! ## The words of a buffer command -/

/-- A one-buffer command's words are its encodings without and with a buffer (R74, R76). -/
theorem bufferWords {o : Opcode} {cmd : Option (List Byte) → Instr}
    (hwf : ∀ b, (cmd b).wellFormed = bufferFits b) (hfields : ∀ b, (cmd b).fields = Fields.withBuffer o b)
    (hpayload : ∀ b, (cmd b).payload = b.getD []) : Claims.BufferWords o.code cmd := by
  constructor
  · intro rest
    have hword := decode_word (hwf none) (hpayload none) rest
    rwa [hfields] at hword
  · intro b rest hb
    have hfits : (cmd (some b)).wellFormed = true := (hwf _).trans (decide_eq_true hb)
    have hcode := decode_encode hfits rest
    rwa [encode, hfields, hpayload] at hcode

/-- MSTAMP's payload is the mask's bytes and then the value's (R76). -/
theorem decode_mstamp {mask val : List Byte} (hmask : mask.length < 256) (hval : val.length = mask.length)
    (rest : List Byte) :
    decode (bytesOfWord (Fields.withBuffer .mstamp (some mask)).toWord ++ (mask ++ val) ++ rest) =
      .command (.mstamp (some (mask, val))) rest :=
  decode_encode (i := .mstamp (some (mask, val))) (by simp [Instr.wellFormed, bufferPairFits, hmask, hval]) rest

end Sys2Proof

namespace Sys2Proof.Machine

/-! ## The payload checks that fail (R119) -/

theorem checkPayload_some {c : Cfg} {b : List Byte} (h : b.length ≠ c.count) :
    checkPayload c (some b) = some .lengthMismatch := by
  simp [checkPayload, h]

theorem checkPayloadPair_some {c : Cfg} {m v : List Byte} (h : m.length ≠ c.count) :
    checkPayloadPair c (some (m, v)) = some .lengthMismatch := by
  simp [checkPayloadPair, h]

theorem State.execMasked_of_length {s : State} {f : Byte → Byte → Byte} {mask : List Byte}
    (h : mask.length = s.cfg.count) : s.execMasked f (some mask) = .next (s.masked f mask).done := by
  rw [State.execMasked, checkPayload_none h, State.checked_none, Option.getD_some]

/-! ## The pins of a buffer operand (R53) -/

/-- No mask bit past the mask's end selects a pin. -/
theorem pinOf_of_le {b : List Byte} {p : Nat} (h : 8 * b.length ≤ p) : Claims.pinOf b p = false := by
  have hbyte : bufferByte b (p / 8) = 0x00#8 := bufferByte_of_le (by omega)
  exact (congrArg (·.getLsbD (p % 8)) hbyte).trans BitVec.getLsbD_zero

/-- The byte operation `f` is the bit operation `bit` at each of a byte's bits. -/
def ActsOnBits (f : Byte → Byte → Byte) (bit : Bool → Bool → Bool) : Prop :=
  ∀ (old mask : Byte) (k : Nat), k < 8 → (f old mask).getLsbD k = bit (old.getLsbD k) (mask.getLsbD k)

theorem actsOnBits_set : ActsOnBits (fun old m => old ||| m) (fun old selected => old || selected) :=
  fun _ _ _ _ => BitVec.getLsbD_or

theorem actsOnBits_reset : ActsOnBits (fun old m => old &&& ~~~m) (fun old selected => old && !selected) := by
  intro old m k hk
  simp [hk]

theorem actsOnBits_toggle :
    ActsOnBits (fun old m => old ^^^ m) (fun old selected => if selected then !old else old) := by
  intro old m k _
  rw [BitVec.getLsbD_xor]
  cases m.getLsbD k <;> simp

/-- A masked operation, pin by pin, up to and including `MAXBIT` (R122, R123). -/
theorem State.readPin_masked (s : State) {f : Byte → Byte → Byte} {bit : Bool → Bool → Bool} (hf : ActsOnBits f bit)
    (mask : List Byte) (p : Nat) :
    (s.masked f mask).buf.readPin p =
      if p < 8 * s.cfg.count then bit (s.buf.readPin p) (Claims.pinOf mask p) else s.buf.readPin p := by
  have hbyte : p / 8 < s.cfg.count ↔ p < 8 * s.cfg.count := by omega
  simp only [Memory.readPin, State.read_masked, hbyte]
  split
  · exact hf _ _ _ (Nat.mod_lt p (by decide))
  · rfl

/-- MSTAMP, pin by pin: a selected pin takes the value's bit of the same index (R123, R140). -/
theorem State.readPin_stamp (s : State) {mask : List Byte} (hmask : mask.length = s.cfg.count) (val : List Byte)
    (p : Nat) :
    (s.stamp mask val).buf.readPin p = if Claims.pinOf mask p then Claims.pinOf val p else s.buf.readPin p := by
  by_cases hp : p < 8 * s.cfg.count
  · have hbyte : p / 8 < s.cfg.count := by omega
    have hbit : p % 8 < 8 := Nat.mod_lt p (by decide)
    have hpin (b : List Byte) : (bufferByte b (p / 8)).getLsbD (p % 8) = Claims.pinOf b p := rfl
    rw [Memory.readPin, State.read_stamp, if_pos hbyte, BitVec.getLsbD_or, BitVec.getLsbD_and, BitVec.getLsbD_and,
      BitVec.getLsbD_not, hpin, hpin]
    cases Claims.pinOf mask p <;> simp [hbit, Memory.readPin]
  · have hbyte : ¬ p / 8 < s.cfg.count := by omega
    rw [Memory.readPin, State.read_stamp, if_neg hbyte, pinOf_of_le (by omega)]
    rfl

/-! ## MSET, MRESET and MTOGGLE -/

/-- The three outcomes of a one-buffer masked command (R119, R122). -/
theorem maskedCommand {cmd : Option (List Byte) → Instr} {f : Byte → Byte → Byte} {bit : Bool → Bool → Bool}
    (hcmd : ∀ mask s, exec (cmd mask) s = s.execMasked f mask) (hf : ActsOnBits f bit) :
    Claims.MaskedCommand cmd bit := by
  refine ⟨fun s mask h => ?_, fun s => hcmd none s, fun s mask h => ?_⟩
  · exact ⟨_, (hcmd _ s).trans (State.execMasked_of_length h), rfl, s.readPin_masked hf mask⟩
  · rw [hcmd, State.execMasked, checkPayload_some h, State.checked_some]
    rfl

/-- Settles O22: the or of bytes is the or of bits. -/
theorem msetSetsTheSelectedPins : Obligations.MsetSetsTheSelectedPins :=
  ⟨maskedCommand (fun _ _ => rfl) actsOnBits_set,
    bufferWords (o := .mset) (fun _ => rfl) (fun _ => rfl) (fun _ => rfl), illegalOutside_unusedBits .mset⟩

/-- Settles O23: the and of bytes with a complement is that of bits. -/
theorem mresetClearsTheSelectedPins : Obligations.MresetClearsTheSelectedPins :=
  ⟨maskedCommand (fun _ _ => rfl) actsOnBits_reset,
    bufferWords (o := .mreset) (fun _ => rfl) (fun _ => rfl) (fun _ => rfl), illegalOutside_unusedBits .mreset⟩

/-- Settles O24: the exclusive or with a selected bit inverts. -/
theorem mtoggleInvertsTheSelectedPins : Obligations.MtoggleInvertsTheSelectedPins :=
  ⟨maskedCommand (fun _ _ => rfl) actsOnBits_toggle,
    bufferWords (o := .mtoggle) (fun _ => rfl) (fun _ => rfl) (fun _ => rfl), illegalOutside_unusedBits .mtoggle⟩

/-! ## FILL and READBUF -/

theorem exec_fill_eq (v : Byte) (s : State) :
    exec (.fill v) s = .next { s with buf := s.buf.mapBytes (fun _ _ => v) s.cfg.count }.done := rfl

/-- Settles O20: FILL maps the bytes 0 to `N-1` to a constant. -/
theorem fillSetsEveryByte : Obligations.FillSetsEveryByte := by
  refine ⟨fun s v => ⟨_, exec_fill_eq v s, rfl, fun i hi => ?_, fun i hi => ?_⟩,
    fun v => decode_word (i := .fill v) rfl rfl, illegalOutside_unusedBits .fill⟩
  · rw [State.done_buf, Memory.read_mapBytes, if_pos hi]
  · rw [State.done_buf, Memory.read_mapBytes, if_neg (by omega)]

/-- FILL leaves `CFG`, so a legal pin stays legal, and GET answers the fill's bit there (R100, R120). -/
theorem runCommands_fill_get (s : State) (v : Byte) {pin : PinIndex} (hcount : 1 ≤ s.cfg.count)
    (hpin : pin.toNat ≤ s.cfg.maxBit) :
    ∃ t, runCommands [.fill v, .get pin] s = .next t ∧
      t.resp = Claims.answer .ok (if v.getLsbD (pin.toNat % 8) then 1#16 else 0#16) := by
  have hbyte : pin.toNat / 8 < s.cfg.count := by unfold Cfg.maxBit at hpin; omega
  have hget := exec_get_of_le (s := { s with buf := s.buf.mapBytes (fun _ _ => v) s.cfg.count }.done) hpin
  refine ⟨_, (runCommands_cons (exec_fill_eq v s)).trans (runCommands_singleton hget), ?_⟩
  rw [State.done_buf, Memory.readPin, Memory.read_mapBytes, if_pos hbyte]

/-- Settles O21: every bit of 0xFF is 1, and every bit of 0x00 is 0. -/
theorem fillThenGetReturnsTheFill : Obligations.FillThenGetReturnsTheFill := by
  intro s pin hcount hpin
  have hones : (0xFF#8).getLsbD (pin.toNat % 8) = true :=
    (BitVec.getLsbD_allOnes (v := 8)).trans (decide_eq_true (Nat.mod_lt _ (by decide)))
  have hset := runCommands_fill_get s 0xFF#8 hcount hpin
  have hclear := runCommands_fill_get s 0x00#8 hcount hpin
  rw [hones] at hset
  rw [BitVec.getLsbD_zero] at hclear
  exact ⟨hset, hclear⟩

/-- Settles O27: `MemRead(0, N)` is the `N` bytes of `BUF` in order. -/
theorem readbufReturnsTheBuffer : Obligations.ReadbufReturnsTheBuffer := by
  refine ⟨fun s => ⟨_, rfl, rfl, rfl, rfl, s.buf.length_readBytes 0 _, fun i hi => ?_⟩,
    decode_word (i := .readbuf) rfl rfl, illegalOutside_unusedBits .readbuf⟩
  rw [State.respond_resp]
  simp [Memory.readBytes, hi]

/-! ## OVERWRITE and MSTAMP -/

theorem exec_overwrite_attached {s : State} {new : List Byte} (h : new.length = s.cfg.count) :
    exec (.overwrite (some new)) s = .next { s with buf := s.buf.writeBytes 0 new }.done := by
  rw [exec_overwrite, State.rewriteBuf_of_pass (checkPayload_none h), Option.getD_some]

theorem exec_overwrite_of_length_ne {s : State} {new : List Byte} (h : new.length ≠ s.cfg.count) :
    exec (.overwrite (some new)) s = .next (s.raise .lengthMismatch) := by
  rw [exec, execOverwrite, checkPayload_some h, State.checked_some]

/-- Settles O25: `N` bytes written from address 0 are the bytes below `N`. -/
theorem overwriteReplacesTheBuffer : Obligations.OverwriteReplacesTheBuffer := by
  refine ⟨fun s new h => ⟨_, exec_overwrite_attached h, rfl, fun i hi => ?_, fun i hi => ?_⟩,
    fun _ => rfl, fun _ _ => exec_overwrite_of_length_ne,
    bufferWords (o := .overwrite) (fun _ => rfl) (fun _ => rfl) (fun _ => rfl), illegalOutside_unusedBits .overwrite⟩
  · rw [State.done_buf, Memory.read_writeBytes, if_pos (by omega), Nat.sub_zero]
  · rw [State.done_buf, Memory.read_writeBytes, if_neg (by omega)]

theorem exec_mstamp_attached {s : State} {mask val : List Byte} (hmask : mask.length = s.cfg.count)
    (hval : val.length = s.cfg.count) : exec (.mstamp (some (mask, val))) s = .next (s.stamp mask val).done := by
  rw [exec, execMstamp, checkPayloadPair_none hmask hval, State.checked_none, Option.getD_some]

theorem exec_mstamp_of_length_ne {s : State} {mask val : List Byte} (h : mask.length ≠ s.cfg.count) :
    exec (.mstamp (some (mask, val))) s = .next (s.raise .lengthMismatch) := by
  rw [exec, execMstamp, checkPayloadPair_some h, State.checked_some]

/-- Settles O26: pin by pin and byte by byte the two laws of `State.stamp`. -/
theorem mstampCopiesTheSelectedPins : Obligations.MstampCopiesTheSelectedPins := by
  refine ⟨fun s mask val hmask hval => ?_, fun _ => rfl, fun _ _ _ _ => exec_mstamp_of_length_ne,
    decode_word (i := .mstamp none) rfl rfl, fun _ _ rest hmask hval => decode_mstamp hmask hval rest,
    illegalOutside_unusedBits .mstamp⟩
  refine ⟨_, exec_mstamp_attached hmask hval, rfl, s.readPin_stamp hmask val, fun i hi => ?_, fun i hi => ?_⟩
  · rw [State.done_buf, State.read_stamp, if_pos hi]
    rfl
  · rw [State.done_buf, State.read_stamp, if_neg (by omega)]

/-! ## Two masked commands, one after the other -/

theorem exec_mset_attached {s : State} {mask : List Byte} (h : mask.length = s.cfg.count) :
    exec (.mset (some mask)) s = .next (s.masked (fun old m => old ||| m) mask).done :=
  State.execMasked_of_length h

theorem exec_mreset_attached {s : State} {mask : List Byte} (h : mask.length = s.cfg.count) :
    exec (.mreset (some mask)) s = .next (s.masked (fun old m => old &&& ~~~m) mask).done :=
  State.execMasked_of_length h

theorem runCommands_pair {i j : Instr} {s t u : State} (hi : exec i s = .next t) (hj : exec j t = .next u) :
    runCommands [i, j] s = .next u :=
  (runCommands_cons hi).trans (runCommands_singleton hj)

/-- Settles O29: MSET leaves `CFG`, so the mask fits MRESET too; at a selected pin `(old || 1) && !1` is 0, at another
`(old || 0) && !0` is the old bit. -/
theorem msetThenMresetClearsTheSelected : Obligations.MsetThenMresetClearsTheSelected := by
  intro s m hm
  refine ⟨_, runCommands_pair (exec_mset_attached hm) (exec_mreset_attached hm), fun p => ?_⟩
  rw [State.done_buf, State.readPin_masked _ actsOnBits_reset, State.done_buf, State.readPin_masked _ actsOnBits_set]
  by_cases hp : p < 8 * s.cfg.count
  · cases hsel : Claims.pinOf m p <;> simp [hp]
  · simp [hp, pinOf_of_le (b := m) (p := p) (by omega)]

/-- Two maps over a canonical memory are the one map that acts as both do on each byte. -/
theorem Memory.mapBytes_mapBytes {m : Memory} (h : m.wf = true) {f g k : Nat → Byte → Byte} {n : Nat}
    (hk : ∀ i b, i < n → g i (f i b) = k i b) : (m.mapBytes f n).mapBytes g n = m.mapBytes k n := by
  refine Memory.ext_read (Memory.wf_mapBytes g n (Memory.wf_mapBytes f n h)) (Memory.wf_mapBytes k n h) fun a => ?_
  simp only [Memory.read_mapBytes]
  split
  next ha => exact hk a _ ha
  · rfl

theorem or_xor_self_eq_and_not (old mask : Byte) : (old ||| mask) ^^^ mask = old &&& ~~~mask := by
  apply BitVec.eq_of_getLsbD_eq
  intro k hk
  cases hmask : mask[k] <;> simp [hk, hmask]

theorem and_not_xor_self_eq_or (old mask : Byte) : (old &&& ~~~mask) ^^^ mask = old ||| mask := by
  apply BitVec.eq_of_getLsbD_eq
  intro k hk
  cases hmask : mask[k] <;> simp [hk, hmask]

/-- Byte `i` of `v & m`, as MSTAMP selects it. -/
theorem bufferByte_zipWith_and {v m : List Byte} {i : Nat} (hv : i < v.length) (hm : i < m.length) :
    bufferByte (List.zipWith (fun x y => x &&& y) v m) i = bufferByte v i &&& bufferByte m i := by
  simp [bufferByte, List.getD, hv, hm]

/-- Settles O30: each law is one byte equality, at every byte below `N`. -/
theorem maskLawsOfWholeBuffers : Obligations.MaskLawsOfWholeBuffers := by
  intro s m v hwf hm hv
  have hzip : (List.zipWith (fun x y => x &&& y) v m).length = s.cfg.count := by simp [hm, hv]
  refine ⟨?_, ?_, ?_⟩
  · refine ⟨_, _, runCommands_pair (exec_mset_attached hm) (exec_mtoggle_attached hm),
      runCommands_singleton (exec_mreset_attached hm), ?_⟩
    exact Memory.mapBytes_mapBytes hwf fun _ _ _ => or_xor_self_eq_and_not _ _
  · refine ⟨_, _, runCommands_pair (exec_mreset_attached hm) (exec_mtoggle_attached hm),
      runCommands_singleton (exec_mset_attached hm), ?_⟩
    exact Memory.mapBytes_mapBytes hwf fun _ _ _ => and_not_xor_self_eq_or _ _
  · refine ⟨_, _, runCommands_singleton (exec_mstamp_attached hm hv),
      runCommands_pair (exec_mreset_attached hm) (exec_mset_attached hzip), ?_⟩
    refine (Memory.mapBytes_mapBytes hwf fun i _ hi => ?_).symm
    rw [bufferByte_zipWith_and (by omega) (by omega)]

end Sys2Proof.Machine

/-! PROOF. The statements of 42_segment_ops.md: RDSEG and WRSEG of a legal segment, of any other, and as words; and
RDSEG after WRSEG of one segment (R166). -/

namespace Sys2Proof.Machine

/-! ## The segment commands -/

/-- RDSEG of a legal segment answers its value (R160). -/
theorem exec_rdseg_of_pass {s : State} {start : PinIndex} {count : BitVec 8}
    (h : checkSegment s.cfg start count = none) :
    exec (.rdseg start count) s =
      .next { s with resp := Claims.answer .ok (s.buf.readSegment start.toNat count.toNat) } := by
  rw [exec, execRdseg, h, State.checked_none]
  rfl

theorem exec_wrseg_of_pass {s : State} {start : PinIndex} {count : BitVec 8} (value : BitVec 16)
    (h : checkSegment s.cfg start count = none) :
    exec (.wrseg start count value) s =
      .next { s with buf := s.buf.writeSegment start.toNat value count.toNat }.done := by
  rw [exec_wrseg, State.rewriteBuf_of_pass h]

/-- With a count outside 1 to 16 or an end past `MAXBIT` both raise `PinOutOfRange` (R160, R164). -/
theorem exec_segment_of_illegal {s : State} {start : PinIndex} {count : BitVec 8} {value : BitVec 16}
    (h : count.toNat < 1 ∨ 16 < count.toNat ∨ s.cfg.maxBit < start.toNat + count.toNat - 1) {i : Instr}
    (hi : i ∈ [Instr.rdseg start count, .wrseg start count value]) : exec i s = .next (s.raise .pinOutOfRange) := by
  have hraise (effect : State) : s.checked (checkSegment s.cfg start count) effect =
      .next (s.raise .pinOutOfRange) := by
    rw [checkSegment_some h, State.checked_some]
  simp only [List.mem_cons, List.not_mem_nil, or_false] at hi
  rcases hi with rfl | rfl <;> exact hraise _

/-- The value read back from a written segment is the written value's low bits (R165, R166). -/
theorem Memory.readSegment_writeSegment (m : Memory) (start : Nat) (value : BitVec 16) {n : Nat} (hn : n ≤ 16) :
    (m.writeSegment start value n).readSegment start n = value &&& BitVec.ofNat 16 (2 ^ n - 1) := by
  apply BitVec.eq_of_getLsbD_eq
  intro j hj
  have hmask : (BitVec.ofNat 16 (2 ^ n - 1)).getLsbD j = decide (j < n) := by
    rw [BitVec.getLsbD_ofNat, Nat.testBit_two_pow_sub_one, decide_eq_true hj, Bool.true_and]
  rw [Memory.getLsbD_readSegment _ _ _ hn, BitVec.getLsbD_and, hmask, Bool.and_comm]
  by_cases hlow : j < n
  · rw [Memory.readPin_writeSegment, if_pos (by omega), Nat.add_sub_cancel_left]
  · simp only [decide_eq_false hlow, Bool.and_false]

/-! ## The obligations -/

/-- Settles O32: the value's bits are the law of `readSegment`. -/
theorem rdsegReturnsTheSegment : Obligations.RdsegReturnsTheSegment := by
  refine ⟨fun s start count h1 h16 hend => ?_,
    fun _ _ _ h => exec_segment_of_illegal (value := 0#16) h (by simp),
    fun start count => decode_word (i := .rdseg start count) rfl rfl, illegalOutside_unusedBits .rdseg⟩
  exact ⟨_, exec_rdseg_of_pass (checkSegment_none h1 h16 hend), rfl,
    fun j => s.buf.getLsbD_readSegment start.toNat j h16⟩

/-- Settles O33: the frame on pins is the law of `writeSegment`. -/
theorem wrsegWritesTheSegment : Obligations.WrsegWritesTheSegment := by
  refine ⟨fun s start count value h1 h16 hend => ?_,
    fun _ _ _ value h => exec_segment_of_illegal (value := value) h (by simp),
    fun start count value => decode_word (i := .wrseg start count value) rfl rfl, illegalOutside_unusedBits .wrseg⟩
  exact ⟨_, exec_wrseg_of_pass value (checkSegment_none h1 h16 hend), rfl,
    s.buf.readPin_writeSegment start.toNat value count.toNat⟩

/-- Settles O34: WRSEG leaves `CFG`, so the segment passes RDSEG's check too, and RDSEG reads what was written. -/
theorem wrsegThenRdsegReturnsTheLowBits : Obligations.WrsegThenRdsegReturnsTheLowBits := by
  intro s start count value h1 h16 hend
  have hcheck := checkSegment_none h1 h16 hend
  have hread := exec_rdseg_of_pass
    (s := { s with buf := s.buf.writeSegment start.toNat value count.toNat }.done) hcheck
  refine ⟨_, runCommands_pair (exec_wrseg_of_pass value hcheck) hread, ?_⟩
  rw [State.done_buf, Memory.readSegment_writeSegment _ _ _ h16]

end Sys2Proof.Machine

/-! PROOF. The statements of 44_transmitter.md: what TRANSMIT leaves (R184, R186, R190), the chain after a frame (R197 to
R199), one call and the chain (R191 to R195), and a frame call by call (R185, R187, R188, R200). -/

namespace Sys2Proof.Machine

/-! ## TRANSMIT: the lines, the trace, what is kept (R184, R186, R190) -/

theorem exec_transmit (s : State) : exec .transmit s = .next s.transmit := rfl

@[simp] theorem State.transmit_lvLatch (s : State) : s.transmit.lvLatch = some true := by
  rw [State.transmit_eq]

theorem State.transmit_lvClk {s : State} (h : 1 ≤ s.cfg.count) : s.transmit.lvClk = some true := by
  rw [State.transmit_eq]
  exact if_neg (by omega)

theorem State.transmit_lvData {s : State} (h : 1 ≤ s.cfg.count) :
    s.transmit.lvData = some ((s.buf.read 0).getLsbD 0) := by
  rw [State.transmit_eq]
  exact if_neg (by omega)

/-- Settles O35: field by field what the frame leaves, and the words of the opcode. -/
theorem transmitSendsTheFrame : Obligations.TransmitSendsTheFrame := by
  refine ⟨fun s => ⟨s.transmit, exec_transmit s, s.transmit_trace, ?_, s.transmit_lvLatch,
    fun h => ⟨State.transmit_lvClk h, State.transmit_lvData h⟩⟩,
    decode_word (i := .transmit) rfl rfl, illegalOutside_unusedBits .transmit⟩
  rw [State.transmit_eq]
  rfl

/-- Settles O37: with a byte to send, the frame drives all three lines, so no earlier level is left. -/
theorem transmitLeavesTheIdleLevels : Obligations.TransmitLeavesTheIdleLevels := fun s h =>
  ⟨_, exec_transmit s, s.transmit_lvLatch, State.transmit_lvClk h, State.transmit_lvData h⟩

/-- Settles O38: no PinDriver call writes these fields. -/
theorem transmitKeepsBufferAndConfiguration : Obligations.TransmitKeepsBufferAndConfiguration := by
  intro s
  obtain ⟨hcfg, hphase, -⟩ := s.transmit_keeps_configuration
  exact ⟨_, exec_transmit s, s.transmit_buf, hcfg, hphase⟩

/-! ## The chain after a frame (R197 to R199) -/

theorem State.transmit_chain (s : State) :
    s.transmit.chain = ((s.buf.pinsDown (8 * s.cfg.count)).foldl Chain.shift s.chain).latch := by
  rw [State.transmit_eq]

/-- The last call of a frame latches the shift stage (R194). -/
theorem State.transmit_chain_st (s : State) : s.transmit.chain.st = s.transmit.chain.sh := by
  rw [State.transmit_chain, Chain.latch_st, Chain.latch_sh]

/-- Settles O40: the shift stage is `Chain.foldl_shift_sh`, and the last call latches it. -/
theorem frameShiftsTheBufferIntoTheChain : Obligations.FrameShiftsTheBufferIntoTheChain := by
  intro s h
  obtain ⟨-, -, hm⟩ := s.transmit_keeps_configuration
  refine ⟨_, exec_transmit s, hm, ?_, s.transmit_chain_st⟩
  rw [State.transmit_chain, Chain.latch_sh, Chain.foldl_shift_sh _ _ h]

/-- Output `k` of register `i` on the chain is position `8*i + k` (R196): the pin of that number, or what was `N`
registers nearer the block before the frame (R198). -/
theorem State.transmit_output (s : State) {i k : Nat} (hk : k < 8) (hi : i < s.chain.m) :
    s.transmit.chain.output i k =
      if i < s.cfg.count then (s.buf.read i).getLsbD k else s.chain.sh.testBit (8 * (i - s.cfg.count) + k) := by
  have hpos : 8 * i + k < 8 * s.chain.m := by omega
  rw [Chain.output, State.transmit_chain, Chain.latch_st, Chain.testBit_foldl_shift _ _ _ hpos]
  by_cases hn : i < s.cfg.count
  · rw [if_pos (by omega), if_pos hn, Memory.getLsbD_read _ _ hk]
  · rw [if_neg (by omega), if_neg hn, show 8 * i + k - 8 * s.cfg.count = 8 * (i - s.cfg.count) + k by omega]

/-- There is no register from `M` up (R198). -/
theorem State.transmit_output_of_le {s : State} (h : 1 ≤ s.cfg.count) {i : Nat} (k : Nat) (hi : s.chain.m ≤ i) :
    s.transmit.chain.output i k = false := by
  have hpos : ¬ 8 * i + k < 8 * s.chain.m := by omega
  rw [Chain.output, State.transmit_chain, Chain.latch_st, Chain.foldl_shift_sh _ _ h, Nat.testBit_mod_two_pow,
    decide_eq_false hpos, Bool.false_and]

/-- Settles O41: by the position of the output, below `8*N`, from there up on the chain, or past its end. -/
theorem registersAfterAFrame : Obligations.RegistersAfterAFrame := by
  intro s h
  refine ⟨_, exec_transmit s, fun i k hk hi => ?_, fun i k hk hn hm => ?_, fun i k => State.transmit_output_of_le h k⟩
  · rw [s.transmit_output hk (by omega), if_pos (by omega)]
  · rw [s.transmit_output hk hm, if_neg (by omega)]

/-- Settles O42: with `M = N` the frame replaces all that the chain held. -/
theorem chainShowsTheBufferAfterTransmit : Obligations.ChainShowsTheBufferAfterTransmit := by
  intro s h hm
  have hsh : s.transmit.chain.sh = s.buf.number s.cfg.count := by
    rw [State.transmit_chain, Chain.latch_sh, Chain.foldl_shift_sh_of_eq _ _ h hm]
  refine ⟨_, exec_transmit s, s.transmit_chain_st.trans hsh, hsh, fun i k hi hk => ?_⟩
  rw [s.transmit_output hk (by omega), if_pos hi]

/-! ## One call and the chain (R191 to R195) -/

/-- Raising the shift clock shifts the chain on a rising edge only (R192, R193). -/
theorem State.drive_clk_high_chain (s : State) :
    (s.drive .clk true).chain =
      if risingEdge s.lvClk s.draws then s.chain.shift (shownLevel s.lvData s.draws) else s.chain := rfl

/-- Raising the latch copies the chain's stage on a rising edge only (R193, R194). -/
theorem State.drive_latch_high_chain (s : State) :
    (s.drive .latch true).chain = if risingEdge s.lvLatch s.draws then s.chain.latch else s.chain := rfl

/-- Settles O44: from 0 the raised line has a rising edge, and the data line shows what was driven on it. -/
theorem risingEdgesShiftAndLatchTheChain : Obligations.RisingEdgesShiftAndLatchTheChain := by
  refine fun s => ⟨fun b hclk hdata => ?_, fun hlatch => ?_⟩
  · rw [State.drive_clk_high_chain, hclk, hdata]; rfl
  · rw [State.drive_latch_high_chain, hlatch]; rfl

/-- Settles O45: from 1 there is no edge, from ⊥ the draw decides, and the other calls reach no clock input. -/
theorem onlyRisingEdgesChangeTheChain : Obligations.OnlyRisingEdgesChangeTheChain := by
  refine fun s => ⟨fun hclk => ?_, fun _ => ?_, fun hlatch => ?_, fun _ => ?_, rfl, rfl, fun _ => rfl, rfl⟩
  · rw [State.drive_clk_high_chain, hclk]; rfl
  · rw [State.drive_clk_high_chain]
    split
    · exact .inr ⟨_, rfl⟩
    · exact .inl rfl
  · rw [State.drive_latch_high_chain, hlatch]; rfl
  · rw [State.drive_latch_high_chain]
    split
    · exact .inr rfl
    · exact .inl rfl

/-! ## The calls of a frame by index (R187, R188) -/

/-- A frame lowers the latch, sends the pins `8*N - 1` down to 0 and raises the latch (R184, R187). -/
theorem frameOf_eq (s : State) :
    Claims.frameOf s =
      .drive .latch false :: ((s.buf.pinsDown (8 * s.cfg.count)).flatMap bitSlot ++ [.drive .latch true]) := by
  rw [Claims.frameOf, frameCalls, bufferSlots_readBytes s.buf (Nat.le_refl s.cfg.count)]
  rfl

@[simp] theorem Memory.length_pinsDown (m : Memory) (k : Nat) : (m.pinsDown k).length = k := by
  simp [Memory.pinsDown]

@[simp] theorem length_bitSlot (b : Bool) : (bitSlot b).length = 4 := rfl

/-- Call `4*j + i` of a list of slots is call `i` of slot `j`. -/
theorem getElem?_slots {bits : List Bool} {j i : Nat} (hj : j < bits.length) (hi : i < 4) :
    (bits.flatMap bitSlot)[4 * j + i]? = (bitSlot bits[j])[i]? := by
  induction bits generalizing j with
  | nil => cases hj
  | cons b bits ih =>
    rw [List.flatMap_cons]
    cases j with
    | zero => rw [List.getElem?_append_left (by simp; omega), Nat.mul_zero, Nat.zero_add, List.getElem_cons_zero]
    | succ j =>
      have hlater : 4 * (j + 1) + i - (bitSlot b).length = 4 * j + i := by rw [length_bitSlot]; omega
      rw [List.getElem?_append_right (by simp; omega), hlater]
      exact ih (by simpa using hj)

/-- Call `4*j + i + 1` of a frame is call `i` of the slot of pin `8*N - (j + 1)`. -/
theorem getElem?_frameOf_slot (s : State) {j i : Nat} (hj : j < 8 * s.cfg.count) (hi : i < 4) :
    (Claims.frameOf s)[4 * j + i + 1]? = (bitSlot (s.buf.readPin (8 * s.cfg.count - (j + 1))))[i]? := by
  rw [frameOf_eq, List.getElem?_cons_succ, List.getElem?_append_left (by simp; omega),
    getElem?_slots (by simpa using hj) hi]
  simp [Memory.pinsDown]

theorem getElem?_frameOf_zero (s : State) : (Claims.frameOf s)[0]? = some (.drive .latch false) := by
  rw [frameOf_eq, List.getElem?_cons_zero]

theorem getElem?_frameOf_last (s : State) : (Claims.frameOf s)[32 * s.cfg.count + 1]? = some (.drive .latch true) := by
  have hslots : 32 * s.cfg.count = ((s.buf.pinsDown (8 * s.cfg.count)).flatMap bitSlot).length := by simp; omega
  rw [frameOf_eq, List.getElem?_cons_succ, hslots, List.getElem?_concat_length]

/-- A call of a frame is its first, one of a slot's four, or its last. -/
theorem frameOf_call_cases {s : State} {k : Nat} {c : PinCall} (h : (Claims.frameOf s)[k]? = some c) :
    c = .drive .latch false ∨
    (∃ j i, j < 8 * s.cfg.count ∧ i < 4 ∧ k = 4 * j + i + 1 ∧
      (bitSlot (s.buf.readPin (8 * s.cfg.count - (j + 1))))[i]? = some c) ∨
    c = .drive .latch true := by
  obtain ⟨hlt, -⟩ := List.getElem?_eq_some_iff.mp h
  rw [length_frameOf] at hlt
  rcases Nat.eq_zero_or_pos k with rfl | hpos
  · rw [getElem?_frameOf_zero] at h
    exact .inl (Option.some.inj h).symm
  · by_cases hlast : k = 32 * s.cfg.count + 1
    · rw [hlast, getElem?_frameOf_last] at h
      exact .inr (.inr (Option.some.inj h).symm)
    · have hk : k = 4 * ((k - 1) / 4) + (k - 1) % 4 + 1 := by omega
      have hj : (k - 1) / 4 < 8 * s.cfg.count := by omega
      have hi : (k - 1) % 4 < 4 := Nat.mod_lt _ (by decide)
      rw [hk, getElem?_frameOf_slot s hj hi] at h
      exact .inr (.inl ⟨_, _, hj, hi, hk, h⟩)

/-! ## The rising edges of a frame (R188) -/

/-- Each slot raises the clock once, from 0; the latch call after them raises no clock. -/
theorem risingEdges_clk_slots (bits : List Bool) (lv : Option Level) :
    Claims.risingEdges .clk lv (bits.flatMap bitSlot ++ [.drive .latch true]) = bits.length := by
  induction bits generalizing lv with
  | nil => rfl
  | cons b bits ih =>
    rw [List.flatMap_cons, List.append_assoc, List.length_cons, ← ih (some true), Nat.add_comm]
    simp [bitSlot, Claims.risingEdges]

/-- The slots do not touch the latch. -/
theorem risingEdges_latch_slots (bits : List Bool) (lv : Option Level) (rest : List PinCall) :
    Claims.risingEdges .latch lv (bits.flatMap bitSlot ++ rest) = Claims.risingEdges .latch lv rest := by
  induction bits with
  | nil => rfl
  | cons b bits ih =>
    rw [List.flatMap_cons, List.append_assoc, ← ih]
    simp [bitSlot, Claims.risingEdges]

theorem risingEdges_clk_frameOf (s : State) :
    Claims.risingEdges .clk s.lvClk (Claims.frameOf s) = 8 * s.cfg.count := by
  rw [frameOf_eq]
  exact (risingEdges_clk_slots _ s.lvClk).trans (s.buf.length_pinsDown _)

theorem risingEdges_latch_frameOf (s : State) : Claims.risingEdges .latch s.lvLatch (Claims.frameOf s) = 1 := by
  rw [frameOf_eq]
  simp [Claims.risingEdges, risingEdges_latch_slots]

/-- The event a frame appends for a call. -/
theorem getElem?_frame {s : State} {k : Nat} {c : PinCall} (h : (Claims.frameOf s)[k]? = some c) :
    (Claims.frame s)[k]? = some (c.event s.cfg) := by
  rw [frame_eq_map_event, List.getElem?_map, h, Option.map_some]

/-- Pin `8*N - t` by its byte and its bit (R187). -/
theorem Memory.readPin_frame_order (m : Memory) {n t : Nat} (hpos : 1 ≤ t) (hle : t ≤ 8 * n) :
    m.readPin (8 * n - t) = (m.read (n - 1 - (t - 1) / 8)).getLsbD (7 - (t - 1) % 8) := by
  rw [Memory.getLsbD_read m _ (by omega)]
  congr 1
  omega

/-- Settles O36: the events are the calls', and bit `t` goes out in slot `t - 1`. -/
theorem frameEventsByIndex : Obligations.FrameEventsByIndex := by
  refine fun s => ⟨_, Claims.frame s, exec_transmit s, s.transmit_trace, length_frame s,
    getElem?_frame (getElem?_frameOf_zero s), fun t hpos hle => ?_, getElem?_frame (getElem?_frameOf_last s),
    frame_eq_map_event s, risingEdges_clk_frameOf s, risingEdges_latch_frameOf s⟩
  obtain ⟨j, rfl⟩ := Nat.exists_eq_add_of_le' hpos
  have hslot {i : Nat} (hi : i < 4) := getElem?_frameOf_slot s (j := j) (by omega) hi
  exact ⟨getElem?_frame (hslot (i := 0) (by decide)), getElem?_frame (hslot (i := 1) (by decide)),
    getElem?_frame (hslot (i := 2) (by decide)), getElem?_frame (hslot (i := 3) (by decide)),
    s.buf.readPin_frame_order hpos hle⟩

/-! ## The lines and the outputs within a frame (R185, R200) -/

theorem State.runCalls_take_succ (s : State) {cs : List PinCall} {k : Nat} {c : PinCall} (h : cs[k]? = some c) :
    s.runCalls (cs.take (k + 1)) = (s.runCalls (cs.take k)).perform c := by
  rw [List.take_add_one, h, State.runCalls_append]
  rfl

/-- Each data call of a frame follows a falling clock edge. -/
theorem getElem?_frameOf_of_data {s : State} {k : Nat} {b : Bool}
    (h : (Claims.frameOf s)[k]? = some (.drive .data b)) :
    ∃ j, k = j + 1 ∧ (Claims.frameOf s)[j]? = some (.drive .clk false) := by
  rcases frameOf_call_cases h with hc | ⟨j, i, hj, hi, rfl, hc⟩ | hc
  · cases hc
  · obtain rfl : i = 1 := by
      match i, hi with
      | 0, _ | 2, _ | 3, _ => cases hc
      | 1, _ => rfl
    exact ⟨_, rfl, getElem?_frameOf_slot s hj (i := 0) (by decide)⟩
  · cases hc

/-- Each call of a frame that raises the clock ends a slot: the clock lowered, the data set, a delay. -/
theorem getElem?_frameOf_of_clk_high {s : State} {k : Nat} (h : (Claims.frameOf s)[k]? = some (.drive .clk true)) :
    ∃ j b, k = j + 3 ∧ (Claims.frameOf s)[j]? = some (.drive .clk false) ∧
      (Claims.frameOf s)[j + 1]? = some (.drive .data b) ∧ (Claims.frameOf s)[j + 2]? = some .hold := by
  rcases frameOf_call_cases h with hc | ⟨j, i, hj, hi, rfl, hc⟩ | hc
  · cases hc
  · obtain rfl : i = 3 := by
      match i, hi with
      | 0, _ | 1, _ | 2, _ => cases hc
      | 3, _ => rfl
    have hslot {i : Nat} (hi : i < 4) := getElem?_frameOf_slot s hj hi
    exact ⟨_, _, rfl, hslot (i := 0) (by decide), hslot (i := 1) (by decide), hslot (i := 2) (by decide)⟩
  · cases hc

/-- A call that does not drive the latch leaves its level and the outputs (R195). -/
theorem State.perform_of_not_latch (s : State) {c : PinCall} (h : ∀ b, c ≠ .drive .latch b) :
    (s.perform c).lvLatch = s.lvLatch ∧ (s.perform c).chain.st = s.chain.st := by
  cases c with
  | hold => exact ⟨rfl, rfl⟩
  | drive line b =>
    cases line with
    | latch => exact absurd rfl (h b)
    | data => exact ⟨rfl, rfl⟩
    | clk =>
      cases b with
      | false => exact ⟨rfl, rfl⟩
      | true =>
        rw [State.perform, State.drive_clk_high_chain]
        refine ⟨rfl, ?_⟩
        split <;> rfl

theorem State.runCalls_of_not_latch (s : State) {cs : List PinCall} (h : ∀ b, .drive .latch b ∉ cs) :
    (s.runCalls cs).lvLatch = s.lvLatch ∧ (s.runCalls cs).chain.st = s.chain.st := by
  induction cs generalizing s with
  | nil => exact ⟨rfl, rfl⟩
  | cons c cs ih =>
    obtain ⟨hlatch, hst⟩ := s.perform_of_not_latch fun b hb => h b (hb ▸ List.mem_cons_self)
    obtain ⟨hlatch', hst'⟩ := ih (s.perform c) fun b hb => h b (List.mem_cons_of_mem _ hb)
    exact ⟨hlatch'.trans hlatch, hst'.trans hst⟩

theorem drive_latch_not_mem_slots (bits : List Bool) (b : Bool) : .drive .latch b ∉ bits.flatMap bitSlot := by
  simp [bitSlot]

/-- Between its first call and its last a frame holds the latch low, and the outputs as they were. -/
theorem State.runCalls_take_frameOf (s : State) {k : Nat} (hpos : 0 < k) (hlt : k < (Claims.frameOf s).length) :
    (s.runCalls ((Claims.frameOf s).take k)).lvLatch = some false ∧
    (s.runCalls ((Claims.frameOf s).take k)).chain.st = s.chain.st := by
  obtain ⟨j, rfl⟩ := Nat.exists_eq_add_of_le' hpos
  rw [length_frameOf] at hlt
  rw [frameOf_eq, List.take_succ_cons, List.take_append_of_le_length (by simp; omega), State.runCalls_cons]
  exact (s.drive .latch false).runCalls_of_not_latch
    fun b hb => drive_latch_not_mem_slots _ b (List.mem_of_mem_take hb)

/-- Settles O39: the calls before a data call and before a rising edge, by their place in the slot. -/
theorem dataChangesOnlyWhileTheClockIsLow : Obligations.DataChangesOnlyWhileTheClockIsLow := by
  refine fun s k => ⟨fun b h => ?_, fun h => ?_, fun hpos hlt => (s.runCalls_take_frameOf hpos hlt).1, fun h => ?_⟩
  · obtain ⟨j, rfl, hclk⟩ := getElem?_frameOf_of_data h
    rw [s.runCalls_take_succ hclk]
    rfl
  · obtain ⟨j, b, rfl, hclk, hdata, hhold⟩ := getElem?_frameOf_of_clk_high h
    refine ⟨?_, j + 1, b, rfl, hdata, hhold⟩
    rw [s.runCalls_take_succ hhold, s.runCalls_take_succ hdata, s.runCalls_take_succ hclk]
    rfl
  · rw [length_frameOf] at h
    obtain rfl : k = 32 * s.cfg.count + 1 := by omega
    exact getElem?_frameOf_last s

/-- A frame ends by raising the latch. -/
theorem State.runCalls_frameOf (s : State) :
    s.runCalls (Claims.frameOf s) =
      (s.runCalls ((Claims.frameOf s).take ((Claims.frameOf s).length - 1))).drive .latch true := by
  have hlength : (Claims.frameOf s).length = 32 * s.cfg.count + 1 + 1 := by rw [length_frameOf]; omega
  have htake := s.runCalls_take_succ (getElem?_frameOf_last s)
  rw [← hlength, List.take_length] at htake
  rw [htake, hlength]
  rfl

/-- Settles O43: the outputs hold while the latch is low, and the last call raises it. -/
theorem outputsHoldUntilTheLatchEdge : Obligations.OutputsHoldUntilTheLatchEdge := by
  intro s
  have hchain : s.transmit.chain = (s.runCalls (Claims.frameOf s)).chain := rfl
  refine ⟨fun k hlt => ?_, _, exec_transmit s, hchain, ?_⟩
  · rcases Nat.eq_zero_or_pos k with rfl | hpos
    · rfl
    · exact (s.runCalls_take_frameOf hpos hlt).2
  · have hlength := length_frameOf s
    obtain ⟨hlow, -⟩ := s.runCalls_take_frameOf (k := (Claims.frameOf s).length - 1) (by omega) (by omega)
    rw [hchain, State.runCalls_frameOf, State.drive_latch_rise _ hlow, Chain.latch_st]

end Sys2Proof.Machine

/-! PROOF. The statements of 60_exceptions.md: which check decides a command's status (R221 to R224), what a failing
command leaves (R222, R223, R226), and the response of a step (R236). -/

namespace Sys2Proof.Machine

/-! ## The check that decides a command's status -/

/-- The check a command makes of its operands before it changes anything (R227): the status it raises, or none. -/
def operandCheck (c : Cfg) : Instr → Option Status
  | .get pin | .set pin _ | .toggle pin => checkPin c pin
  | .rdseg start count | .wrseg start count _ => checkSegment c start count
  | .mset b | .mreset b | .mtoggle b | .overwrite b => checkPayload c b
  | .mstamp mv => checkPayloadPair c mv
  | .fill _ | .readbuf | .transmit => none

/-- A failed check raises its status (R226). -/
theorem exec_of_operandCheck_some {i : Instr} {s : State} {e : Status} (h : operandCheck s.cfg i = some e) :
    exec i s = .next (s.raise e) := by
  cases i with
  | fill v | readbuf | transmit => cases h
  | _ => exact congrArg (s.checked · _) h

/-- A status other than OK is the one the check gave. -/
theorem operandCheck_of_status_ne_ok {i : Instr} {s t : State} (h : exec i s = .next t) (hfail : t.resp.status ≠ .ok) :
    operandCheck s.cfg i = some t.resp.status := by
  cases i with
  | fill v | readbuf | transmit => cases h; exact absurd rfl hfail
  | _ =>
    rcases State.checked_next h with ⟨e, he, rfl⟩ | ⟨-, rfl⟩
    · exact he
    · exact absurd rfl hfail

/-- All that a failing command does is raise a status (R226). -/
theorem exec_eq_raise_of_status_ne_ok {i : Instr} {s t : State} (h : exec i s = .next t)
    (hfail : t.resp.status ≠ .ok) : t = s.raise t.resp.status := by
  have hraise := exec_of_operandCheck_some (operandCheck_of_status_ne_ok h hfail)
  rw [h] at hraise
  exact Host.Outcome.next.inj hraise

/-! ## What the payload checks raise -/

theorem checkPayload_eq_some_iff {c : Cfg} {b : Option (List Byte)} {e : Status} :
    checkPayload c b = some e ↔
      (e = .nullOrMissingBuffer ∧ b = none) ∨ (e = .lengthMismatch ∧ ∃ m, b = some m ∧ m.length ≠ c.count) := by
  cases b with
  | none => simp [checkPayload, eq_comm]
  | some m => by_cases hm : m.length = c.count <;> simp [checkPayload, hm, eq_comm]

theorem checkPayloadPair_eq_some_iff {c : Cfg} {b : Option (List Byte × List Byte)} {e : Status} :
    checkPayloadPair c b = some e ↔
      (e = .nullOrMissingBuffer ∧ b = none) ∨
      (e = .lengthMismatch ∧ ∃ m v, b = some (m, v) ∧ (m.length ≠ c.count ∨ v.length ≠ c.count)) := by
  rcases b with _ | ⟨m, v⟩
  · simp [checkPayloadPair, eq_comm]
  · by_cases hm : m.length = c.count <;> by_cases hv : v.length = c.count <;>
      simp [checkPayloadPair, hm, hv, eq_comm]

/-! ## Which commands raise which status -/

/-- `PinOutOfRange` is the pin check's and the segment check's only (R221). -/
theorem command_of_pinOutOfRange {c : Cfg} {i : Instr} (h : operandCheck c i = some .pinOutOfRange) :
    (∃ p, i = .get p) ∨ (∃ p b, i = .set p b) ∨ (∃ p, i = .toggle p) ∨ (∃ p n, i = .rdseg p n) ∨
      ∃ p n v, i = .wrseg p n v := by
  cases i with
  | get p | set p b | toggle p | rdseg p n | wrseg p n v => simp
  | fill v | readbuf | transmit => cases h
  | mset b | mreset b | mtoggle b | overwrite b => rcases checkPayload_eq h with he | he <;> cases he
  | mstamp mv => rcases checkPayloadPair_eq h with he | he <;> cases he

/-- `NullOrMissingBuffer` is an absent payload's only (R222). -/
theorem command_of_nullOrMissingBuffer {c : Cfg} {i : Instr} (h : operandCheck c i = some .nullOrMissingBuffer) :
    i ∈ [Instr.mset none, .mreset none, .mtoggle none, .overwrite none, .mstamp none] := by
  cases i with
  | get p | set p b | toggle p => cases checkPin_eq h
  | rdseg p n | wrseg p n v => cases checkSegment_eq h
  | fill v | readbuf | transmit => cases h
  | mset b | mreset b | mtoggle b | overwrite b =>
    rcases checkPayload_eq_some_iff.mp h with ⟨-, rfl⟩ | ⟨he, -⟩
    · simp
    · cases he
  | mstamp mv =>
    rcases checkPayloadPair_eq_some_iff.mp h with ⟨-, rfl⟩ | ⟨he, -⟩
    · simp
    · cases he

/-- `LengthMismatch` is an attached payload's only, one whose length is not `N` (R223). -/
theorem command_of_lengthMismatch {c : Cfg} {i : Instr} (h : operandCheck c i = some .lengthMismatch) :
    ∃ b v, i ∈ [Instr.mset (some b), .mreset (some b), .mtoggle (some b), .overwrite (some b), .mstamp (some (b, v))] ∧
      (b.length ≠ c.count ∨ (i = .mstamp (some (b, v)) ∧ v.length ≠ c.count)) := by
  cases i with
  | get p | set p b | toggle p => cases checkPin_eq h
  | rdseg p n | wrseg p n v => cases checkSegment_eq h
  | fill v | readbuf | transmit => cases h
  | mset b | mreset b | mtoggle b | overwrite b =>
    rcases checkPayload_eq_some_iff.mp h with ⟨he, -⟩ | ⟨-, m, rfl, hm⟩
    · cases he
    · exact ⟨m, [], by simp, .inl hm⟩
  | mstamp mv =>
    rcases checkPayloadPair_eq_some_iff.mp h with ⟨he, -⟩ | ⟨-, m, v, rfl, hmv⟩
    · cases he
    · exact ⟨m, v, by simp, hmv.imp_right fun hv => ⟨rfl, hv⟩⟩

/-! ## The obligations -/

/-- Settles O50: a status other than OK is the operand check's, and each check raises its own. -/
theorem statusesEachCommandRaises : Obligations.StatusesEachCommandRaises := by
  intro i s t h
  have hcheck {e : Status} (he : t.resp.status = e) (hne : e ≠ .ok) : operandCheck s.cfg i = some e :=
    he ▸ operandCheck_of_status_ne_ok h (he ▸ hne)
  exact ⟨fun he => command_of_pinOutOfRange (hcheck he nofun),
    fun he => command_of_nullOrMissingBuffer (hcheck he nofun),
    fun he => command_of_lengthMismatch (hcheck he nofun), exec_status_ne_illegalCommand h⟩

/-- Settles O49: a failing command raises its status on the state that has taken its bytes, as an illegal word does. -/
theorem failureHasNoOtherEffect : Obligations.FailureHasNoOtherEffect := by
  refine ⟨fun i s t h => exec_eq_raise_of_status_ne_ok h, fun s t hready h hfail => ?_⟩
  rcases step_next h with ⟨p, hunbuilt, -⟩ | ⟨why, rest, -, -, rfl⟩ | ⟨i, rest, u, -, -, hexec, rfl⟩
  · rw [hready] at hunbuilt; cases hunbuilt
  · rfl
  · have hu : u = (s.accept rest).raise u.resp.status := exec_eq_raise_of_status_ne_ok hexec hfail
    generalize u.resp.status = e at hu
    rw [hu]
    rfl

/-- Settles O28: the payload check of each of the five commands fails, and a failed check raises its status. -/
theorem payloadErrorsLeaveTheBuffer : Obligations.PayloadErrorsLeaveTheBuffer := by
  constructor
  · intro s
    simp only [List.forall_mem_cons]
    exact ⟨rfl, rfl, rfl, rfl, rfl, nofun⟩
  · intro s b c hb _
    have hone : checkPayload s.cfg (some b) = some .lengthMismatch := checkPayload_some hb
    simp only [List.forall_mem_cons]
    exact ⟨exec_of_operandCheck_some hone, exec_of_operandCheck_some hone, exec_of_operandCheck_some hone,
      exec_of_operandCheck_some hone, exec_mstamp_of_length_ne hb, nofun⟩

/-- Settles O48: every command's check either raises a status or lets the effect happen. -/
theorem everyCommandAnswers : Obligations.EveryCommandAnswers := exec_answers

/-- Settles O54: nothing before the delivery touches what the host has received. -/
theorem oneResponsePerCommand : Obligations.OneResponsePerCommand := by
  intro s t hready h
  rcases step_next h with ⟨p, hunbuilt, -⟩ | ⟨why, rest, -, -, rfl⟩ | ⟨i, rest, u, -, -, hexec, rfl⟩
  · rw [hready] at hunbuilt; cases hunbuilt
  · rfl
  · rw [State.deliver_delivered, exec_delivered hexec]
    rfl

end Sys2Proof.Machine

/-! PROOF. The statements of 70_reset_and_hazards.md: which constructions are refused (R261), how long a frame's delays
are (R280), and when a ready block waits for the host's bytes (R275). -/

namespace Sys2Proof.Machine

/-! ## The refusal of a construction (R261) -/

/-- Nothing but its parameters has a construction refused, in whatever state it is requested. -/
theorem construct_refused_iff (p : ConstructParams) (s : State) :
    construct p s = .refused .illegalConstruction ↔ ¬ constructLegal p = true := by
  by_cases hlegal : constructLegal p = true
  · simp [construct_eq s hlegal, hlegal]
  · simp [construct, hlegal]

/-- Settles O12: the three cases are the failures of the three conditions of `constructLegal_iff`. -/
theorem illegalConstructionIsRefused : Obligations.IllegalConstructionIsRefused := by
  intro p s
  rw [construct_refused_iff, constructLegal_iff]
  simp only [not_and_or, not_le, ne_eq, not_not, not_forall, exists_prop]

/-! ## The delays of a frame (R280) -/

theorem delayTotal_append (xs ys : List Event) : delayTotal (xs ++ ys) = delayTotal xs + delayTotal ys := by
  induction xs with
  | nil => simp [delayTotal]
  | cons e xs ih => cases e <;> simp [delayTotal, ih, Nat.add_assoc]

theorem delayTotal_flatMap {α : Type} (f : α → List Event) (xs : List α) :
    delayTotal (xs.flatMap f) = (xs.map fun x => delayTotal (f x)).sum := by
  induction xs with
  | nil => rfl
  | cons x xs ih => rw [List.flatMap_cons, delayTotal_append, ih, List.map_cons, List.sum_cons]

/-- Each of the `8*N` slots of a frame waits `T_HOLD` once, and the calls on the latch do not wait (R184). -/
theorem delayTotal_frame (s : State) : delayTotal (Claims.frame s) = 8 * s.cfg.count * s.cfg.tHold := by
  rw [Claims.frame, delayTotal_append, delayTotal_append, delayTotal_flatMap]
  simp [delayTotal]

/-- Settles O46: the events that TRANSMIT appends are those of the frame. -/
theorem transmitDelaysAddUp : Obligations.TransmitDelaysAddUp := fun s =>
  ⟨s.transmit, Claims.frame s, exec_transmit s, s.transmit_trace, delayTotal_frame s⟩

/-! ## The block waiting for the host (R275, log entry 8) -/

/-- Fewer bytes than a word has are no command yet. -/
theorem decode_of_length_lt {bs : List Byte} (h : bs.length < 8) : decode bs = .shortWord := by
  rcases decode_cases bs with ⟨hshort, -⟩ | ⟨w, rest, rfl, -⟩
  · exact hshort
  · rw [List.length_append, length_bytesOfWord] at h
    omega

/-- Settles O9: the decoder finds the word short, or by `commandLengthComesFromTheWord` its payload. -/
theorem shortCommandLeavesTheBlockWaiting : Obligations.ShortCommandLeavesTheBlockWaiting := by
  constructor
  · intro s hready hshort
    simp only [step_of_ready hready, decode_of_length_lt hshort]
  · intro s w pay hready hport hshort
    have hdecode : decode s.port = .shortPayload := by
      rw [hport]
      exact (commandLengthComesFromTheWord w pay []).2 hshort
    simp only [step_of_ready hready, hdecode]

end Sys2Proof.Machine
